-- ==== Sys2Proof/Word.lean ====
section
/-! DEFINITION. The data types of the block with their widths (00_scope.md R7, 10_state.md R24). -/

namespace Sys2Proof

/-- `Byte`: 8 bits, unsigned, 0 to 255 (R7). -/
abbrev Byte := BitVec 8

/-- `PackedValue`: a signed 32-bit integer (R7), two's complement on its port (R45). -/
abbrev PackedValue := BitVec 32

/-- `WorkingValue`: 64 bits, unsigned (R7). The ports `value`, `new_digits`, `n` and the digit-field results
have the same width (R24). -/
abbrev WorkingValue := BitVec 64

/-- The ports `position` and `width`: 5 bits, unsigned (R9, R24). -/
abbrev FieldIndex := BitVec 5

/-- The operation select code `op`: 3 bits (R9, R73). -/
abbrev OpCode := BitVec 3

end Sys2Proof
end

