-- ==== Sys2Proof/Config.lean ====
section
/-! DEFINITION. The constants of the block (00_scope.md R8), the parameters this spec decides (R9), and the one
value the spec leaves open after reset is done (93_implementation_defined.md row 11). -/

namespace Sys2Proof.Config

/-- `I32_MAX` = 2^31 - 1 (R8). -/
abbrev i32Max : Nat := 2147483647

/-- `W_INIT` = 10^9: mode tag 1, all fields zero (R8). -/
abbrev wInit : WorkingValue := 1000000000#64

/-- `TAG_POS` and `TAG_WIDTH` (R8). -/
abbrev tagPos : FieldIndex := 10#5
abbrev tagWidth : FieldIndex := 1#5

/-- `A_POS`, `B_POS`, `C_POS` and `FIELD_WIDTH` (R8). -/
abbrev aPos : FieldIndex := 9#5
abbrev bPos : FieldIndex := 6#5
abbrev cPos : FieldIndex := 3#5
abbrev fieldWidth : FieldIndex := 3#5

/-- `GROUP`: bytes per full packed value (R8). -/
abbrev group : Nat := 3

/-- `BYTE_MAX`: the upper end of `Byte` (R8). -/
abbrev byteMax : Nat := 255

/-- `POS_MAX`, the largest supported `position` (R9, decision D5). -/
abbrev posMax : Nat := 19

/-- A `Length` is below 2^64 (R7, R41, decision D12). -/
abbrev lengthBound : Nat := 2 ^ 64

/-- What `W` holds between group steps and after a reset from outside, where 93_implementation_defined.md row 11
says "any value" (10_state.md R22, R31). No body: nothing can be proved of it. It is applied to the state's count
of free values drawn so far. DESIGN CHOICE, safe: notes/assumptions/4.md. -/
opaque unspecifiedW : Nat → WorkingValue

end Sys2Proof.Config
end

