-- ==== Sys2Proof/Syntax.lean ====
section
/-! DEFINITION. The syntax of the block: a request as it stands on the request port (10_state.md R24), and `Instr`,
one constructor for every row of spec/opcode_table.json (30_encoding.md R74). -/

namespace Sys2Proof

/-- The request port: the select code and every operand port of R24. An operand an operation does not list is
ignored by that operation. The batch inputs are whole sequences, length included (20_memory.md R41). -/
structure Request where
  op        : OpCode
  value     : WorkingValue := 0#64
  newDigits : WorkingValue := 0#64
  position  : FieldIndex := 0#5
  width     : FieldIndex := 0#5
  n         : WorkingValue := 0#64
  bytes     : List Byte := []
  values    : List PackedValue := []
  deriving DecidableEq, Repr

/-- The rows of the opcode table. -/
inductive Instr where
  /-- READ_FIELD value, position, width (R91) -/
  | readField (value : WorkingValue) (position width : FieldIndex)
  /-- ZERO_FIELD value, position, width (R92) -/
  | zeroField (value : WorkingValue) (position width : FieldIndex)
  /-- WRITE_FIELD value, new_digits, position, width (R93) -/
  | writeField (value newDigits : WorkingValue) (position width : FieldIndex)
  /-- EXCEEDS_I32 n (R110) -/
  | exceedsI32 (n : WorkingValue)
  /-- ENCODE bytes (R120) -/
  | encodeBytes (bytes : List Byte)
  /-- DECODE values (R140) -/
  | decodeValues (values : List PackedValue)
  /-- RESERVED: codes 6 and 7, `low` is the bit of `op` that the row's mask leaves free (R166) -/
  | reserved (low : BitVec 1)
  /-- PACK3 a, b, c: a group step of ENCODE (R123) -/
  | pack3 (a b c : Byte)
  /-- PACK1 a: a group step of ENCODE (R124) -/
  | pack1 (a : Byte)
  /-- PACK2 a, b: a group step of ENCODE (R125) -/
  | pack2 (a b : Byte)
  /-- UNPACK v: the group step of DECODE (R142) -/
  | unpack (v : PackedValue)
  /-- PV3: pattern 1AAABBBCCC, every field a byte (R148) -/
  | pv3 (a b c : Byte)
  /-- PV2: pattern 2AAABBBCCC, B and C bytes, A any digit group the 32-bit range allows (R148) -/
  | pv2 (a : Nat) (b c : Byte)
  /-- PV1: pattern 0AAABBBCCC, C a byte, A and B any digit groups (R148) -/
  | pv1 (a b : Nat) (c : Byte)
  /-- PV_FIELD_TOO_LARGE: pattern TAAABBBCCC, a field the tag selects is above 255 (R149) -/
  | pvFieldTooLarge (t a b c : Nat)
  /-- PV_NEGATIVE: a value below zero, no decimal pattern is read (R149) -/
  | pvNegative (v : PackedValue)
  deriving DecidableEq, Repr

/-- The column "format" of the opcode table (R74). -/
inductive Format where
  /-- selected by a request's `op` -/
  | req
  /-- a group step, selected inside a batch operation -/
  | group
  /-- a class of packed value -/
  | pv
  deriving DecidableEq, Repr

/-- The row's format. -/
def Instr.format : Instr → Format
  | .readField .. | .zeroField .. | .writeField .. | .exceedsI32 .. | .encodeBytes .. | .decodeValues .. | .reserved .. => .req
  | .pack3 .. | .pack1 .. | .pack2 .. | .unpack .. => .group
  | .pv3 .. | .pv2 .. | .pv1 .. | .pvFieldTooLarge .. | .pvNegative .. => .pv

end Sys2Proof
end

