-- ==== Sys2Proof/WellFormed.lean ====
section
/-! DEFINITION. Which terms of `Instr` and `Request` the encodings of spec/30_encoding.md can express. -/

namespace Sys2Proof

/-- The number that the four digit groups T, A, B, C stand for (30_encoding.md R60). -/
def packedNumber (t a b c : Nat) : Nat := t * 10 ^ 9 + a * 10 ^ 6 + b * 10 ^ 3 + c

/-- Some field that the tag selects is above 255: A, B or C for tag 1, B or C for tag 2, C for tag 0
(43_unpacking_decoder.md R144, R149). -/
def selectedFieldTooLarge (t a b c : Nat) : Bool :=
  (t == 1 && decide (a > Config.byteMax)) || ((t == 1 || t == 2) && decide (b > Config.byteMax)) ||
    decide (c > Config.byteMax)

/-- A digit group of three decimal digits (R60). -/
def isDigitGroup (x : Nat) : Bool := decide (x ≤ 999)

/-- A sequence's length is a `Length`, below 2^64 (20_memory.md R41). -/
def isLength (n : Nat) : Bool := decide (n < Config.lengthBound)

/-- The operands an encoding of the row can carry: sequence lengths (R41), digit groups and the constraints of the
`PV` rows (R148, R149). -/
def Instr.wellFormed : Instr → Bool
  | .readField _ _ _ | .zeroField _ _ _ | .writeField _ _ _ _ | .exceedsI32 _ | .reserved _ => true
  | .encodeBytes bytes => isLength bytes.length
  | .decodeValues values => isLength values.length
  | .pack3 _ _ _ | .pack1 _ | .pack2 _ _ | .unpack _ | .pv3 _ _ _ => true
  | .pv2 a _ _ => decide (a ≤ 147)
  | .pv1 a b _ => isDigitGroup a && isDigitGroup b
  | .pvFieldTooLarge t a b c =>
      decide (t ≤ 2) && isDigitGroup a && isDigitGroup b && isDigitGroup c && selectedFieldTooLarge t a b c &&
        decide (packedNumber t a b c ≤ Config.i32Max)
  | .pvNegative v => decide (v.toInt < 0)

/-- A request a caller can make: both sequence ports carry a `Length` of elements (R41). -/
def Request.wellFormed (r : Request) : Bool := isLength r.bytes.length && isLength r.values.length

end Sys2Proof
end

