-- ==== Sys2Proof/Machine/Operands.lean ====
section
/-! DEFINITION. Decimal digits and digit groups (00_scope.md R10, 40_digit_field_mux.md section 2) and the type
conversions of 30_encoding.md R70, on plain numbers. -/

namespace Sys2Proof.Machine

/-- `dig(v, k)`: the decimal digit of `v` at position k, counted from 1 at the units digit (R10). -/
def dig (v k : Nat) : Nat := v / 10 ^ (k - 1) % 10

/-- `dec[hi:lo](v)`: the decimal digits of `v` at positions hi down to lo as one number (R10). -/
def dec (hi lo v : Nat) : Nat := v / 10 ^ (lo - 1) % 10 ^ (hi - lo + 1)

/-- The digit group with top position p and width w: `(v div 10^(p-w)) mod 10^w` (R91). -/
def readDigits (v p w : Nat) : Nat := v / 10 ^ (p - w) % 10 ^ w

/-- `v` with that group cleared: `v - g * 10^(p-w)` (R92). -/
def zeroDigits (v p w : Nat) : Nat := v - readDigits v p w * 10 ^ (p - w)

/-- `v` with that group replaced by `x`, over the naturals (R93). -/
def writeDigits (v x p w : Nat) : Nat := zeroDigits v p w + x * 10 ^ (p - w)

/-- `zext_64` of a byte: it becomes the `new_digits` of a field write (R70). -/
def zextByte (b : Byte) : WorkingValue := b.zeroExtend 64

/-- `zext_64` of a packed value: "by treating the value as unsigned" (R70, R142). -/
def zextPacked (v : PackedValue) : WorkingValue := v.zeroExtend 64

/-- The cast of the working value to a signed 32-bit integer at the end of a group step (R70). -/
def castToPacked (w : WorkingValue) : PackedValue := w.truncate 32

/-- A digit group emitted as a byte (R70). Only groups that pass `fitsByte` reach it. -/
def castToByte (g : WorkingValue) : Byte := g.truncate 8

end Sys2Proof.Machine
end

