-- ==== Sys2Proof/Machine/Flags.lean ====
section
/-! DEFINITION. The block has no condition codes (10_state.md R27). What stands here are the comparisons its rules
make (40_digit_field_mux.md R103), each once. -/

namespace Sys2Proof.Machine

/-- The supported domain of the digit-field operations, `1 ≤ width ≤ position ≤ 19` (R95, decision D5). -/
def inFieldDomain (p w : FieldIndex) : Bool :=
  decide (1 ≤ w.toNat ∧ w.toNat ≤ p.toNat ∧ p.toNat ≤ Config.posMax)

/-- `new_digits ≥ 10^width`: the number needs more decimal digits than the field has (R97). -/
def needsMoreDigits (x : WorkingValue) (w : FieldIndex) : Bool := decide (10 ^ w.toNat ≤ x.toNat)

/-- The exact result is above 2^64 - 1 (R96, decision D6). -/
def leavesWorkingRange (r : Nat) : Bool := decide (r > 2 ^ 64 - 1)

/-- `exceeds_i32(n)`: `n > i32::MAX`, on an unsigned number (41_range_guard.md R110). -/
def exceedsI32 (n : Nat) : Bool := decide (n > Config.i32Max)

/-- `v < 0` on a packed value (43_unpacking_decoder.md R143). -/
def isNegative (v : PackedValue) : Bool := decide (v.toInt < 0)

/-- A field that may be emitted as a byte: at most 255 (43_unpacking_decoder.md R144). -/
def fitsByte (g : WorkingValue) : Bool := decide (g.toNat ≤ Config.byteMax)

end Sys2Proof.Machine
end

