-- ==== Sys2Proof/Machine/State.lean ====
section
/-! DEFINITION. The state of the block (spec/10_state.md, spec/20_memory.md R40), its responses (R25, R160), the
reasons a step can stop, and the state after reset (R31, R190). -/

namespace Sys2Proof.Machine

/-- The status of a response (60_exceptions.md R160). Code 7 is never produced and has no constructor. -/
inductive Status where
  /-- code 0: the operation completed, the result is valid -/
  | ok
  /-- code 1: `new_digits ≥ 10^width` (R97) -/
  | overflowError
  /-- code 2: `len(bytes) > 2147483647` (R121) -/
  | rangeExceeded
  /-- code 3: an illegal packed value (R143, R144) -/
  | invalidPackedValue
  /-- code 4: not `1 ≤ width ≤ position ≤ 19` (R95) -/
  | domainError
  /-- code 5: the result would be above 2^64 - 1 (R96) -/
  | workingOverflow
  /-- code 6: the select code names no operation (R166) -/
  | illegalOp
  deriving DecidableEq, Repr

/-- The result of an operation that ended with `OK`: the last column of 10_state.md R24. -/
inductive Result where
  /-- `digit_group` of READ_FIELD -/
  | digitGroup (g : WorkingValue)
  /-- `value'` of ZERO_FIELD and WRITE_FIELD -/
  | value (v : WorkingValue)
  /-- the `Bool` of EXCEEDS_I32 -/
  | bool (b : Bool)
  /-- the content of OUT_VALUES, of ENCODE -/
  | packedValues (vs : List PackedValue)
  /-- the content of OUT_BYTES, of DECODE -/
  | bytes (bs : List Byte)
  deriving DecidableEq, Repr

/-- A response: a status and, only when the status is `OK`, the result (10_state.md R25). -/
structure Response where
  status : Status
  result : Option Result
  deriving DecidableEq, Repr

/-- The operation in progress, if any (70_reset_and_hazards.md R190, 10_state.md R30). -/
inductive Activity where
  /-- no operation in progress, ready to take any request -/
  | idle
  /-- inside ENCODE, after the guard -/
  | encoding
  /-- inside DECODE -/
  | decoding
  deriving DecidableEq, Repr

/-- The four sequence spaces, the element index as the address (20_memory.md R40). A sequence is a list: index 0
first, no holes, so equal contents are equal data. -/
structure Memory where
  inBytes   : List Byte
  outValues : List PackedValue
  inValues  : List PackedValue
  outBytes  : List Byte
  deriving DecidableEq, Repr

/-- No sequence: what the spaces hold outside a batch operation, and after reset (R30, R31). -/
def Memory.empty : Memory := { inBytes := [], outValues := [], inValues := [], outBytes := [] }

/-- The form of the spaces: the input sequences have a `Length` of elements (20_memory.md R41). -/
def Memory.wf (m : Memory) : Bool := isLength m.inBytes.length && isLength m.inValues.length

/-- The machine. `w`, `pc`, `oc`, `mem` and `activity` are the block's own (R21, R26, R30, R40, R190). `requests` and
`responses` are the two ports over time: the requests the caller makes, in order, and the responses it has been
given, in order (R24, R25, R51; notes/assumptions/1.md). `freeDraws` is the model's own counter of free values
(notes/assumptions/4.md). -/
structure State where
  /-- the working value `W` -/
  w         : WorkingValue
  activity  : Activity
  /-- the input cursor -/
  pc        : Nat
  /-- the output cursor -/
  oc        : Nat
  mem       : Memory
  /-- head: the request on the port, which stays there until its response is given (R177) -/
  requests  : List Request
  /-- last: the response given last -/
  responses : List Response
  freeDraws : Nat
  deriving DecidableEq, Repr

/-- Why the machine stops. The spec's own faults are not here: they are statuses of a response (R160, R170), and
taking one is a next state. -/
inductive Fault where
  /-- An element read at or beyond the end of its sequence, which does not exist (20_memory.md R42, R49). Raised by
  the fetch of a group step. Safe: the machine stops; no rule makes such a read, and no step reaches it. -/
  | noElement
  deriving DecidableEq, Repr

/-- Why an instruction has no meaning. -/
inductive Refusal where
  /-- The instruction has no meaning yet. Raised by a refused arm of `exec`, of which there is none. Safe. -/
  | notModelled (mnemonic : String)
  deriving DecidableEq, Repr

/-- The state after reset: idle, no response owed, no request presented (R31, R190). `W` is unspecified after reset
(R31): it holds 0 here, DESIGN CHOICE, notes/assumptions/3.md. The cursors and the spaces do not exist outside a
batch operation (R26, R31): 0 and empty here, DESIGN CHOICE, notes/assumptions/5.md. -/
def State.reset : State :=
  { w := 0#64, activity := .idle, pc := 0, oc := 0, mem := Memory.empty, requests := [], responses := [],
    freeDraws := 0 }

end Sys2Proof.Machine
end

