-- ==== Sys2Proof/Machine/Ops.lean ====
section
/-! DEFINITION. The shared operations: the ports, the sequence spaces, taking a fault (60_exceptions.md R170), the
`digit_field_mux` (spec/40_digit_field_mux.md), the encoder's field writes and the decoder's UNPACK as functions. -/

namespace Sys2Proof.Machine

/-! ### Statuses and responses -/

/-- The 3-bit status code (R160). -/
def Status.code : Status → BitVec 3
  | .ok => 0#3
  | .overflowError => 1#3
  | .rangeExceeded => 2#3
  | .invalidPackedValue => 3#3
  | .domainError => 4#3
  | .workingOverflow => 5#3
  | .illegalOp => 6#3

/-- The output sequence of packed values that a caller of ENCODE sees, whatever the status says: `RANGE_EXCEEDED`
carries no result, but its output is the empty sequence (R25, R121, R170, R198). -/
def Response.outValues? (r : Response) : Option (List PackedValue) :=
  match r.status, r.result with
  | .ok, some (.packedValues vs) => some vs
  | .rangeExceeded, _ => some []
  | _, _ => none

/-- The block as it is between operations: no operation in progress, no cursor, no sequence (R30, R172, R190). -/
def toIdle (s : State) : State := { s with activity := .idle, pc := 0, oc := 0, mem := Memory.empty }

/-- Give a response: the request it answers leaves the port, and the block is idle (R172, R177). -/
def respond (r : Response) (s : State) : State :=
  { toIdle s with requests := s.requests.tail, responses := s.responses ++ [r] }

/-- End an operation with status `OK` and its result (R25). -/
def succeed (res : Result) (s : State) : State := respond { status := .ok, result := some res } s

/-- TAKING A FAULT, `raise <Status>` (R170): the response carries the status and no result (R161), nothing the
operation has produced so far is delivered, nothing is saved, no mode changes, control goes to no handler. There is
no return from a fault (R172): the block is idle at once. -/
def raise (st : Status) (s : State) : State := respond { status := st, result := none } s

/-! ### The sequence spaces -/

/-- `MemRead(IN_BYTES[i], 1)`: the whole element, no side effect; no element at or beyond the length (R42). -/
def memReadByte (s : State) (i : Nat) : Option Byte := s.mem.inBytes[i]?

/-- `MemRead(IN_VALUES[i], 4)` (R42). -/
def memReadValue (s : State) (i : Nat) : Option PackedValue := s.mem.inValues[i]?

/-- `MemRead(IN_BYTES[i], 1)` to `MemRead(IN_BYTES[i+n-1], 1)`, in index order. -/
def memReadBytes (s : State) (i : Nat) : Nat → Option (List Byte)
  | 0 => some []
  | n + 1 =>
    match memReadByte s i, memReadBytes s (i + 1) n with
    | some a, some rest => some (a :: rest)
    | _, _ => none

/-- `MemWrite(OUT_VALUES[oc], 4, v) ; oc <- oc + 1` (R43, R122). -/
def emitValue (v : PackedValue) (s : State) : State :=
  { s with mem := { s.mem with outValues := s.mem.outValues ++ [v] }, oc := s.oc + 1 }

/-- `MemWrite(OUT_BYTES[oc], 1, x) ; oc <- oc + 1` (R43, R141). -/
def emitByte (x : Byte) (s : State) : State :=
  { s with mem := { s.mem with outBytes := s.mem.outBytes ++ [x] }, oc := s.oc + 1 }

/-- "for each byte x of bs, in order" (R141). -/
def emitBytes : List Byte → State → State
  | [], s => s
  | x :: rest, s => emitBytes rest (emitByte x s)

/-- `pc <- pc + n` (R122, R141). -/
def advance (n : Nat) (s : State) : State := { s with pc := s.pc + n }

/-- `pc <- 0 ; oc <- 0 ; OUT_VALUES <- []` with IN_BYTES the request's `bytes` (R26, R43, R122). -/
def beginEncode (bytes : List Byte) (s : State) : State :=
  { s with activity := .encoding, pc := 0, oc := 0, mem := { Memory.empty with inBytes := bytes } }

/-- `pc <- 0 ; oc <- 0 ; OUT_BYTES <- []` with IN_VALUES the request's `values` (R26, R43, R141). -/
def beginDecode (values : List PackedValue) (s : State) : State :=
  { s with activity := .decoding, pc := 0, oc := 0, mem := { Memory.empty with inValues := values } }

/-- "end with status OK and result OUT_VALUES" (R122). -/
def endEncode (s : State) : State := succeed (.packedValues s.mem.outValues) s

/-- "end with status OK and result OUT_BYTES" (R141). -/
def endDecode (s : State) : State := succeed (.bytes s.mem.outBytes) s

/-! ### The digit_field_mux -/

/-- `read_field` (R91, R95). -/
def readField (v : WorkingValue) (p w : FieldIndex) : Except Status WorkingValue :=
  if inFieldDomain p w then .ok (BitVec.ofNat 64 (readDigits v.toNat p.toNat w.toNat))
  else .error .domainError

/-- `zero_field` (R92, R95). -/
def zeroField (v : WorkingValue) (p w : FieldIndex) : Except Status WorkingValue :=
  if inFieldDomain p w then .ok (BitVec.ofNat 64 (zeroDigits v.toNat p.toNat w.toNat))
  else .error .domainError

/-- `write_field`, its three checks in the order of R93 and R167. -/
def writeField (v x : WorkingValue) (p w : FieldIndex) : Except Status WorkingValue :=
  if !inFieldDomain p w then .error .domainError
  else if needsMoreDigits x w then .error .overflowError
  else if leavesWorkingRange (writeDigits v.toNat x.toNat p.toNat w.toNat) then .error .workingOverflow
  else .ok (BitVec.ofNat 64 (writeDigits v.toNat x.toNat p.toNat w.toNat))

/-- The response to a digit-field operation: the result, or the fault it raised (R25, R170). -/
def answer (result : WorkingValue → Result) (r : Except Status WorkingValue) (s : State) : State :=
  match r with
  | .ok v => succeed (result v) s
  | .error st => raise st s

/-! ### The encoder's group steps -/

/-- One `W <- write_field(W, digits, position, width)` of a group step. -/
structure FieldWrite where
  digits   : WorkingValue
  position : FieldIndex
  width    : FieldIndex
  deriving DecidableEq, Repr

/-- The field writes of a group step in order, each on the working value the one before left (R123 to R125). -/
def applyWrites (w : WorkingValue) : List FieldWrite → Except Status WorkingValue
  | [] => .ok w
  | f :: rest =>
    match writeField w f.digits f.position f.width with
    | .ok w' => applyWrites w' rest
    | .error st => .error st

/-- A byte into field A, B or C; the number `t` into the tag (30_encoding.md R69, R76). -/
def writeA (b : Byte) : FieldWrite := ⟨zextByte b, Config.aPos, Config.fieldWidth⟩
def writeB (b : Byte) : FieldWrite := ⟨zextByte b, Config.bPos, Config.fieldWidth⟩
def writeC (b : Byte) : FieldWrite := ⟨zextByte b, Config.cPos, Config.fieldWidth⟩
def writeTag (t : WorkingValue) : FieldWrite := ⟨t, Config.tagPos, Config.tagWidth⟩

/-- A group step of ENCODE that takes `n` bytes: `W <- W_INIT`, the field writes, "emit W as PackedValue"
(R123 to R125), then the cursors (R122). A field write that faulted would end the operation with its status
(R168). -/
def packGroup (writes : List FieldWrite) (n : Nat) (s : State) : State :=
  match applyWrites Config.wInit writes with
  | .ok w => advance n (emitValue (castToPacked w) { s with w := w })
  | .error st => raise st s

/-- `W` becomes unspecified: a free value (10_state.md R22, R31, 93_implementation_defined.md row 11). -/
def forgetW (s : State) : State := { s with w := Config.unspecifiedW s.freeDraws, freeDraws := s.freeDraws + 1 }

/-! ### The decoder's group step -/

/-- "for each f of fs: if f > 255: raise INVALID_PACKED_VALUE", then "return fs, each element as a Byte" (R142,
R144). -/
def fieldsToBytes (fs : List WorkingValue) : Except Status (List Byte) :=
  if fs.all fitsByte then .ok (fs.map castToByte) else .error .invalidPackedValue

/-- UNPACK(v) as a function (R142), reading every field with `read_field`. The last arm is decision D21. -/
def unpack (v : PackedValue) : Except Status (List Byte) :=
  if isNegative v then .error .invalidPackedValue
  else do
    let u := zextPacked v
    let t ← readField u Config.tagPos Config.tagWidth
    if t = 1#64 then do
      let a ← readField u Config.aPos Config.fieldWidth
      let b ← readField u Config.bPos Config.fieldWidth
      let c ← readField u Config.cPos Config.fieldWidth
      fieldsToBytes [a, b, c]
    else if t = 2#64 then do
      let b ← readField u Config.bPos Config.fieldWidth
      let c ← readField u Config.cPos Config.fieldWidth
      fieldsToBytes [b, c]
    else if t = 0#64 ∨ u.toNat ≤ Config.byteMax then do
      let c ← readField u Config.cPos Config.fieldWidth
      fieldsToBytes [c]
    else .error .invalidPackedValue

/-- One packed value consumed: its bytes emitted in order, then `pc <- pc + 1` (R141). -/
def yieldBytes (bs : List Byte) (s : State) : State := advance 1 (emitBytes bs s)

/-! ### Reset from outside -/

/-- A reset that arrives from outside between two steps (R190, R191): the block is idle; an operation in progress is
abandoned, no response is given for it and none of its output is delivered; `W` is unspecified. Not a step of the
machine: notes/assumptions/14.md. -/
def externalReset (s : State) : State :=
  { forgetW (toIdle s) with requests := if s.activity = .idle then s.requests else s.requests.tail }

end Sys2Proof.Machine
end

