-- ==== Sys2Proof/Machine/DigitFieldMux.lean ====
section
/-! DEFINITION. The operations of the `digit_field_mux` (spec/40_digit_field_mux.md): READ_FIELD, ZERO_FIELD,
WRITE_FIELD. None of them touches `W` (10_state.md R22). -/

namespace Sys2Proof.Machine

/-- READ_FIELD (R91). -/
def execReadField (value : WorkingValue) (position width : FieldIndex) (s : State) :
    Host.Outcome State Fault Refusal :=
  .next (answer .digitGroup (readField value position width) s)

/-- ZERO_FIELD (R92). -/
def execZeroField (value : WorkingValue) (position width : FieldIndex) (s : State) :
    Host.Outcome State Fault Refusal :=
  .next (answer .value (zeroField value position width) s)

/-- WRITE_FIELD (R93). -/
def execWriteField (value newDigits : WorkingValue) (position width : FieldIndex) (s : State) :
    Host.Outcome State Fault Refusal :=
  .next (answer .value (writeField value newDigits position width) s)

end Sys2Proof.Machine
end

