-- ==== Sys2Proof/Machine/PackingEncoder.lean ====
section
/-! DEFINITION. The `packing_encoder` (spec/42_packing_encoder.md): ENCODE and its group steps PACK3, PACK1, PACK2.
The loop of R122 is the machine's own stepping: Machine/Fetch.lean selects the group steps and the end. -/

namespace Sys2Proof.Machine

/-- ENCODE (R120, R121): the guard on the length first, before any byte is read; then the operation begins (R122). -/
def execEncode (bytes : List Byte) (s : State) : Host.Outcome State Fault Refusal :=
  .next (if exceedsI32 bytes.length then raise .rangeExceeded s else beginEncode bytes s)

/-- PACK3 (R123): fields A, B, C; the tag stays 1. -/
def execPack3 (a b c : Byte) (s : State) : Host.Outcome State Fault Refusal :=
  .next (packGroup [writeA a, writeB b, writeC c] 3 s)

/-- PACK1 (R124): field C, then the tag 1 becomes 0. -/
def execPack1 (a : Byte) (s : State) : Host.Outcome State Fault Refusal :=
  .next (packGroup [writeC a, writeTag 0#64] 1 s)

/-- PACK2 (R125): fields B and C, then the tag 1 becomes 2. -/
def execPack2 (a b : Byte) (s : State) : Host.Outcome State Fault Refusal :=
  .next (packGroup [writeB a, writeC b, writeTag 2#64] 2 s)

end Sys2Proof.Machine
end

