-- ==== Sys2Proof/Machine/TopLevel.lean ====
section
/-! DEFINITION. The top level's own operations: the range guard EXCEEDS_I32 (spec/41_range_guard.md) and the
reserved select codes (60_exceptions.md R166). -/

namespace Sys2Proof.Machine

/-- EXCEEDS_I32 (R110): the status is `OK` for every `n`. -/
def execExceedsI32 (n : WorkingValue) (s : State) : Host.Outcome State Fault Refusal :=
  .next (succeed (.bool (exceedsI32 n.toNat)) s)

/-- RESERVED, `op` 6 and 7 (R166): no operand is read, nothing is done, the response is `ILLEGAL_OP`. -/
def execReserved (_low : BitVec 1) (s : State) : Host.Outcome State Fault Refusal :=
  .next (raise .illegalOp s)

end Sys2Proof.Machine
end

