-- ==== Sys2Proof/Machine/UnpackingDecoder.lean ====
section
/-! DEFINITION. The `unpacking_decoder` (spec/43_unpacking_decoder.md): DECODE, its group step UNPACK, and the
classes of packed value (R148, R149), each with what it yields. -/

namespace Sys2Proof.Machine

/-- DECODE (R140, R141): the operation begins; no guard on the length (20_memory.md R41). -/
def execDecode (values : List PackedValue) (s : State) : Host.Outcome State Fault Refusal :=
  .next (beginDecode values s)

/-- UNPACK (R142): the value's bytes, or the fault, which ends DECODE with no output (R146). -/
def execUnpack (v : PackedValue) (s : State) : Host.Outcome State Fault Refusal :=
  .next (match unpack v with
    | .ok bs => yieldBytes bs s
    | .error st => raise st s)

/-- PV3 yields A, B, C (R148). -/
def execPv3 (a b c : Byte) (s : State) : Host.Outcome State Fault Refusal := .next (yieldBytes [a, b, c] s)

/-- PV2 yields B, C; the decoder does not look at A (R142, R148). -/
def execPv2 (_a : Nat) (b c : Byte) (s : State) : Host.Outcome State Fault Refusal := .next (yieldBytes [b, c] s)

/-- PV1 yields C; the decoder does not look at A and B (R142, R148). -/
def execPv1 (_a _b : Nat) (c : Byte) (s : State) : Host.Outcome State Fault Refusal := .next (yieldBytes [c] s)

/-- PV_FIELD_TOO_LARGE is illegal (R144, R149). -/
def execPvFieldTooLarge (_t _a _b _c : Nat) (s : State) : Host.Outcome State Fault Refusal :=
  .next (raise .invalidPackedValue s)

/-- PV_NEGATIVE is illegal (R143, R149). -/
def execPvNegative (_v : PackedValue) (s : State) : Host.Outcome State Fault Refusal :=
  .next (raise .invalidPackedValue s)

end Sys2Proof.Machine
end

