-- ==== Sys2Proof/Machine/Dispatch.lean ====
section
/-! DEFINITION. One arm per row of the opcode table, each a call of its meaning. -/

namespace Sys2Proof.Machine

def exec (i : Instr) (s : State) : Host.Outcome State Fault Refusal :=
  match i with
  | .readField v p w => Sys2Proof.Machine.execReadField v p w s
  | .zeroField v p w => Sys2Proof.Machine.execZeroField v p w s
  | .writeField v x p w => Sys2Proof.Machine.execWriteField v x p w s
  | .exceedsI32 n => Sys2Proof.Machine.execExceedsI32 n s
  | .encodeBytes bytes => Sys2Proof.Machine.execEncode bytes s
  | .decodeValues values => Sys2Proof.Machine.execDecode values s
  | .reserved low => Sys2Proof.Machine.execReserved low s
  | .pack3 a b c => Sys2Proof.Machine.execPack3 a b c s
  | .pack1 a => Sys2Proof.Machine.execPack1 a s
  | .pack2 a b => Sys2Proof.Machine.execPack2 a b s
  | .unpack v => Sys2Proof.Machine.execUnpack v s
  | .pv3 a b c => Sys2Proof.Machine.execPv3 a b c s
  | .pv2 a b c => Sys2Proof.Machine.execPv2 a b c s
  | .pv1 a b c => Sys2Proof.Machine.execPv1 a b c s
  | .pvFieldTooLarge t a b c => Sys2Proof.Machine.execPvFieldTooLarge t a b c s
  | .pvNegative v => Sys2Proof.Machine.execPvNegative v s

end Sys2Proof.Machine
end

