-- ==== Sys2Proof/Decode.lean ====
section
/-! DEFINITION. Decoding and encoding (spec/30_encoding.md). The block has three encodings: the request's select
code with its operand ports (R24, R73), the bytes of an encoder group (R71, R74), and the decimal layout of a packed
value (R60 to R65). The decoder is total on each; what it refuses it refuses by name. -/

namespace Sys2Proof

open Sys2Proof.Machine (dec)

/-- What an instruction is read from. -/
inductive Encoding where
  /-- the request port (R73) -/
  | request (r : Request)
  /-- the bytes of one group of ENCODE, in input order (R71) -/
  | bytes (group : List Byte)
  /-- an element of IN_VALUES, "every element of the input in turn", which selects UNPACK (R74) -/
  | element (v : PackedValue)
  /-- the decimal digits of a packed value, which say its class (R60, R148, R149) -/
  | digits (v : PackedValue)
  deriving DecidableEq, Repr

/-- The format of the rows an encoding can stand for (R74). -/
def Encoding.format : Encoding → Format
  | .request _ => .req
  | .bytes _ | .element _ => .group
  | .digits _ => .pv

/-- Why a decoding is refused. -/
inductive DecodeRefusal where
  /-- a group of ENCODE has one, two or three bytes (R71); this one has `n` -/
  | noGroupOf (n : Nat)
  deriving DecidableEq, Repr

/-- The request: the whole 3-bit code selects the operation, codes 6 and 7 are reserved (R24, R73, R166). -/
def decodeRequest (r : Request) : Instr :=
  match r.op.toNat with
  | 0 => .readField r.value r.position r.width
  | 1 => .zeroField r.value r.position r.width
  | 2 => .writeField r.value r.newDigits r.position r.width
  | 3 => .exceedsI32 r.n
  | 4 => .encodeBytes r.bytes
  | 5 => .decodeValues r.values
  | _ => .reserved (r.op.truncate 1)

/-- The group step that a group's length selects: 3 bytes PV3, 2 bytes PV2, 1 byte PV1 (R71, R74). -/
def decodeGroup : List Byte → Except DecodeRefusal Instr
  | [a, b, c] => .ok (.pack3 a b c)
  | [a, b] => .ok (.pack2 a b)
  | [a] => .ok (.pack1 a)
  | g => .error (.noGroupOf g.length)

/-- The class of a packed value that is not negative, from its four digit groups (R148, R149). -/
def classify (t a b c : Nat) : Instr :=
  if t = 1 ∧ a ≤ Config.byteMax ∧ b ≤ Config.byteMax ∧ c ≤ Config.byteMax then
    .pv3 (BitVec.ofNat 8 a) (BitVec.ofNat 8 b) (BitVec.ofNat 8 c)
  else if t = 2 ∧ b ≤ Config.byteMax ∧ c ≤ Config.byteMax then
    .pv2 a (BitVec.ofNat 8 b) (BitVec.ofNat 8 c)
  else if t = 0 ∧ c ≤ Config.byteMax then
    .pv1 a b (BitVec.ofNat 8 c)
  else
    .pvFieldTooLarge t a b c

/-- The class of a packed value: negative, or read as T, A, B, C at positions 10, 9..7, 6..4, 3..1 (R60, R74). -/
def decodePackedValue (v : PackedValue) : Instr :=
  if v.toInt < 0 then .pvNegative v
  else classify (dec 10 10 v.toNat) (dec 9 7 v.toNat) (dec 6 4 v.toNat) (dec 3 1 v.toNat)

/-- The decoder. -/
def decode : Encoding → Except DecodeRefusal Instr
  | .request r => .ok (decodeRequest r)
  | .bytes g => decodeGroup g
  | .element v => .ok (.unpack v)
  | .digits v => .ok (decodePackedValue v)

/-- The packed value with the digit groups T, A, B, C (R60). -/
def packedOfDigits (t a b c : Nat) : PackedValue := BitVec.ofNat 32 (packedNumber t a b c)

/-- The encoder. A request's ports that its operation does not list are written as zero (they are ignored, R24). -/
def encode : Instr → Encoding
  | .readField v p w => .request { op := 0b000#3, value := v, position := p, width := w }
  | .zeroField v p w => .request { op := 0b001#3, value := v, position := p, width := w }
  | .writeField v x p w => .request { op := 0b010#3, value := v, newDigits := x, position := p, width := w }
  | .exceedsI32 n => .request { op := 0b011#3, n := n }
  | .encodeBytes bs => .request { op := 0b100#3, bytes := bs }
  | .decodeValues vs => .request { op := 0b101#3, values := vs }
  | .reserved low => .request { op := (0b11#2 ++ low : BitVec 3) }
  | .pack3 a b c => .bytes [a, b, c]
  | .pack1 a => .bytes [a]
  | .pack2 a b => .bytes [a, b]
  | .unpack v => .element v
  | .pv3 a b c => .digits (packedOfDigits 1 a.toNat b.toNat c.toNat)
  | .pv2 a b c => .digits (packedOfDigits 2 a b.toNat c.toNat)
  | .pv1 a b c => .digits (packedOfDigits 0 a b c.toNat)
  | .pvFieldTooLarge t a b c => .digits (packedOfDigits t a b c)
  | .pvNegative v => .digits v

/-- The encoding that a word of the opcode table stands for. A word of 32 bits is a packed value (rows of format
`PV`). Any other word is the request's code: its bits 2..0 are `op` and every operand port is zero, because the
operands are not packed into the word (R73). A number that the 3-bit port cannot carry is no word.
DESIGN CHOICE: notes/assumptions/9.md. -/
def tableEncoding (nbits w : Nat) : Option Encoding :=
  if nbits = 32 then
    if w < 2 ^ 32 then some (.digits (BitVec.ofNat 32 w)) else none
  else if w < 2 ^ 3 then some (.request { op := BitVec.ofNat 3 w })
  else none

/-- What the decoder reads from a word of the opcode table. -/
def decodeTableWord (nbits w : Nat) : Option Instr :=
  match tableEncoding nbits w with
  | some e => (decode e).toOption
  | none => none

end Sys2Proof
end

