-- ==== Sys2Proof/Machine/Fetch.lean ====
section
/-! DEFINITION. What the block does next: the request on its port when idle, and inside a batch operation the group
step that the elements left select, or the operation's end (42_packing_encoder.md R122, 43_unpacking_decoder.md
R141, 30_encoding.md R74). Also how a word is placed for the next step. -/

namespace Sys2Proof.Machine

/-- What is selected. -/
inductive Selection where
  /-- run this instruction -/
  | run (i : Instr)
  /-- the input is used up: the batch operation ends with `OK` -/
  | finish
  /-- no request is presented: the idle block waits -/
  | wait
  /-- an element that does not exist would be read -/
  | missing
  deriving DecidableEq, Repr

/-- `n - pc`: the input bytes left (R122). -/
def bytesLeft (s : State) : Nat := s.mem.inBytes.length - s.pc

/-- The encoder's choice (R122): three bytes while at least three remain, then the one or two left, then the end.
The bytes read select the group step by their number (R71, R74). -/
def selectEncode (s : State) : Selection :=
  if bytesLeft s = 0 then .finish
  else
    match memReadBytes s s.pc (min Config.group (bytesLeft s)) with
    | some g =>
      match decode (.bytes g) with
      | .ok i => .run i
      | .error _ => .missing
    | none => .missing

/-- The decoder's choice (R141): UNPACK on the next element while `pc < n`, then the end. -/
def selectDecode (s : State) : Selection :=
  if s.pc < s.mem.inValues.length then
    match memReadValue s s.pc with
    | some v =>
      match decode (.element v) with
      | .ok i => .run i
      | .error _ => .missing
    | none => .missing
  else .finish

/-- The idle block takes the request on its port (R177, R190). -/
def selectRequest (s : State) : Selection :=
  match s.requests with
  | [] => .wait
  | r :: _ =>
    match decode (.request r) with
    | .ok i => .run i
    | .error _ => .missing

/-- What the block does next. -/
def select (s : State) : Selection :=
  match s.activity with
  | .idle => selectRequest s
  | .encoding => selectEncode s
  | .decoding => selectDecode s

/-- After an instruction that ran inside ENCODE, `W` is unspecified (93_implementation_defined.md row 11). -/
def settle (s t : State) : State := if s.activity = .encoding then forgetW t else t

/-- The end of the batch operation in progress (R122, R141). -/
def finish (s : State) : State :=
  match s.activity with
  | .encoding => endEncode s
  | .decoding => endDecode s
  | .idle => s

/-- `s` with `e` placed so that the next step runs it: a request becomes the one on the idle block's port, before the
requests that wait; a packed value becomes the only element of a DECODE that has just begun, whose request is on the
port. Nothing else changes. A group's bytes become an ENCODE that has just begun in the same way. -/
def place (e : Encoding) (s : State) : State :=
  match e with
  | .request r => { toIdle s with requests := r :: s.requests }
  | .bytes g => beginEncode g { s with requests := { op := 0b100#3, bytes := g } :: s.requests }
  | .element v | .digits v => beginDecode [v] { s with requests := { op := 0b101#3, values := [v] } :: s.requests }

end Sys2Proof.Machine
end

