-- ==== Sys2Proof/Machine/Step.lean ====
section
/-! DEFINITION. One step of the block: the instruction selected next, the end of a batch operation, or waiting for a
request. Every part stands in Machine/Fetch.lean, Machine/Ops.lean and the meanings. -/

namespace Sys2Proof.Machine

/-- One step. -/
def step (s : State) : Host.Outcome State Fault Refusal :=
  match select s with
  | .run i =>
    match exec i s with
    | .next t => .next (settle s t)
    | .fault f => .fault f
    | .refused r => .refused r
  | .finish => .next (finish s)
  | .wait => .next s
  | .missing => .fault .noElement

/-- `s` with the instruction of the opcode table's word placed where the next step takes it. A word that no encoding
stands for is not placed. notes/assumptions/9.md says what `nbits` selects. -/
def State.withFetchWord (s : State) (nbits w : Nat) : State :=
  match Sys2Proof.tableEncoding nbits w with
  | some e => place e s
  | none => s

end Sys2Proof.Machine
end

