-- ==== Sys2Proof/Safety.lean ====
section
/-! DEFINITION. The terms claims are stated in: the operations as functions of the request alone, in the spec's closed
forms (30_encoding.md R76, 42_packing_encoder.md R132, 43_unpacking_decoder.md R147, R148), runs of the machine, and
the invariant every step keeps. Nothing here is used by the machine. -/

namespace Sys2Proof

open Sys2Proof.Machine

/-! ### The operations as functions -/

/-- Every domain a digit-field operation supports, as a proposition on numbers (R95, decision D5). -/
abbrev SupportedField (p w : FieldIndex) : Prop := 1 ≤ w.toNat ∧ w.toNat ≤ p.toNat ∧ p.toNat ≤ 19

/-- The closed forms of the group steps (R76, R123 to R125). -/
def packed3 (a b c : Byte) : PackedValue := packedOfDigits 1 a.toNat b.toNat c.toNat
def packed2 (a b : Byte) : PackedValue := packedOfDigits 2 0 a.toNat b.toNat
def packed1 (a : Byte) : PackedValue := packedOfDigits 0 0 0 a.toNat

/-- ENCODE as one function (R132), for an input that passes the guard. -/
def encodeSeq : List Byte → List PackedValue
  | a :: b :: c :: rest => packed3 a b c :: encodeSeq rest
  | [a, b] => [packed2 a b]
  | [a] => [packed1 a]
  | [] => []

/-- The bytes an instruction of format `PV` yields, none for the illegal classes (R148, R149). -/
def yields : Instr → Option (List Byte)
  | .pv3 a b c => some [a, b, c]
  | .pv2 _ b c => some [b, c]
  | .pv1 _ _ c => some [c]
  | _ => none

/-- The bytes a packed value holds, by its class; none when it is illegal (R148, R149). -/
def bytesOf (v : PackedValue) : Option (List Byte) := yields (decodePackedValue v)

/-- DECODE as one function: each value by itself, concatenated, none when any value is illegal (R146, R147). -/
def decodeSeq : List PackedValue → Option (List Byte)
  | [] => some []
  | v :: rest =>
    match bytesOf v, decodeSeq rest with
    | some bs, some more => some (bs ++ more)
    | _, _ => none

/-- A canonical packed value, by the patterns of R63, R64, R65 (R66). -/
def Canonical (v : PackedValue) : Prop :=
  (∃ a b c : Byte, v.toNat = 10 ^ 9 + a.toNat * 10 ^ 6 + b.toNat * 10 ^ 3 + c.toNat) ∨
    (∃ a b : Byte, v.toNat = 2 * 10 ^ 9 + a.toNat * 10 ^ 3 + b.toNat) ∨ v.toNat ≤ 255

/-- A response with a status that is not `OK`: no result (R25). -/
def faulty (st : Status) : Response := { status := st, result := none }

/-- A response with status `OK`. -/
def completed (res : Result) : Response := { status := .ok, result := some res }

/-- The response of an operation as a function of the request alone (10_state.md R20), in plain arithmetic:
R91, R92, R93 with the order of R167, R110, R121, R132, R146, R147, R166. -/
def response (r : Request) : Response :=
  match decodeRequest r with
  | .readField v p w =>
      if SupportedField p w then completed (.digitGroup (BitVec.ofNat 64 (v.toNat / 10 ^ (p.toNat - w.toNat) % 10 ^ w.toNat)))
      else faulty .domainError
  | .zeroField v p w =>
      if SupportedField p w then
        completed (.value (BitVec.ofNat 64 (v.toNat - v.toNat / 10 ^ (p.toNat - w.toNat) % 10 ^ w.toNat * 10 ^ (p.toNat - w.toNat))))
      else faulty .domainError
  | .writeField v x p w =>
      if ¬SupportedField p w then faulty .domainError
      else if 10 ^ w.toNat ≤ x.toNat then faulty .overflowError
      else
        let r := v.toNat - v.toNat / 10 ^ (p.toNat - w.toNat) % 10 ^ w.toNat * 10 ^ (p.toNat - w.toNat) +
          x.toNat * 10 ^ (p.toNat - w.toNat)
        if 2 ^ 64 ≤ r then faulty .workingOverflow else completed (.value (BitVec.ofNat 64 r))
  | .exceedsI32 n => completed (.bool (decide (2147483647 < n.toNat)))
  | .encodeBytes bs => if 2147483647 < bs.length then faulty .rangeExceeded else completed (.packedValues (encodeSeq bs))
  | .decodeValues vs =>
      match decodeSeq vs with
      | some bs => completed (.bytes bs)
      | none => faulty .invalidPackedValue
  -- codes 6 and 7; no request decodes to a group step or a class of packed value
  | .reserved _ | .pack3 _ _ _ | .pack1 _ | .pack2 _ _ | .unpack _ | .pv3 _ _ _ | .pv2 _ _ _ | .pv1 _ _ _
  | .pvFieldTooLarge _ _ _ _ | .pvNegative _ => faulty .illegalOp

/-! ### Runs -/

/-- `k` steps, stopping at the first fault or refusal: `Host.Core.run` of this machine, on its own types. -/
def run : Nat → State → Host.Outcome State Fault Refusal
  | 0, s => .next s
  | k + 1, s =>
    match step s with
    | .next t => run k t
    | .fault f => .fault f
    | .refused r => .refused r

/-- No operation in progress, no cursor, no sequence: what R30 and R190 say of the block between operations. -/
abbrev Machine.State.Idle (s : State) : Prop := s.activity = .idle ∧ s.pc = 0 ∧ s.oc = 0 ∧ s.mem = Memory.empty

/-- THE MACHINE'S TRANSACTIONS (00_scope.md R6): whatever idle block has the request `r` on its port, and whatever
requests wait behind it, the block gives exactly the response `resp` after finitely many steps and is idle again. -/
def Answers (r : Request) (resp : Response) : Prop :=
  ∀ s : State, s.Idle → ∀ rest, s.requests = r :: rest →
    ∃ k t, run k s = .next t ∧ t.Idle ∧ t.requests = rest ∧ t.responses = s.responses ++ [resp]

/-- The requests for the batch operations (R24). -/
def encodeRequest (bs : List Byte) : Request := { op := 4#3, bytes := bs }
def decodeRequestOf (vs : List PackedValue) : Request := { op := 5#3, values := vs }

/-! ### The source's own invariants (00_scope.md R12) -/

/-- The round trip of one input: `decode(encode(bytes)) == bytes`, both with status `OK` (R150). -/
def RoundTrips (bs : List Byte) : Prop :=
  ∃ vs, Answers (encodeRequest bs) (completed (.packedValues vs)) ∧
    Answers (decodeRequestOf vs) (completed (.bytes bs))

/-- Field isolation of one change from `v` to `v'`: every digit outside the field stands, and the field holds `x` and
reads back as `x` (R98). -/
def FieldIsolated (v v' x : WorkingValue) (p w : FieldIndex) : Prop :=
  (∀ k : Nat, 1 ≤ k → p.toNat < k ∨ k < p.toNat - w.toNat + 1 → dig v'.toNat k = dig v.toNat k) ∧
    dec p.toNat (p.toNat - w.toNat + 1) v'.toNat = x.toNat ∧ readField v' p w = .ok x

/-- The mode tag: the digit at position 10, for every packed value (R61). -/
def modeTag (v : PackedValue) : Nat := dig v.toNat 10

/-- The bytes a mode tag stands for (R62, R71); the other digits are no tag. -/
def tagByteCount : Nat → Option Nat
  | 0 => some 1
  | 1 => some 3
  | 2 => some 2
  | _ => none

/-- The number of bytes in the group at index `i` of an input of `n` bytes: three, or what is left (R122). -/
def groupByteCount (n i : Nat) : Nat := min Config.group (n - Config.group * i)

/-- The load-bearing bound at `v`: a tag-1 value is at least 10^9 and a tag-2 value at least 2·10^9, so neither is at
most 255, and among the canonical values those at most 255 are exactly the single remainders (R67). -/
def LoadBearingBound (v : PackedValue) : Prop :=
  (modeTag v = 1 → 10 ^ 9 ≤ v.toNat) ∧ (modeTag v = 2 → 2 * 10 ^ 9 ≤ v.toNat) ∧
    (modeTag v = 1 ∨ modeTag v = 2 → 255 < v.toNat) ∧ (Canonical v → (v.toNat ≤ 255 ↔ modeTag v = 0))

/-! ### Statuses and safe steps -/

/-- The statuses an operation can end with: the table of 60_exceptions.md R162, `ILLEGAL_OP` for the reserved codes
(R166). -/
def mayEndWith : Instr → Status → Bool
  | .readField .., st | .zeroField .., st => st == .ok || st == .domainError
  | .writeField .., st => st == .ok || st == .overflowError || st == .domainError || st == .workingOverflow
  | .exceedsI32 .., st => st == .ok
  | .encodeBytes .., st => st == .ok || st == .rangeExceeded
  | .decodeValues .., st => st == .ok || st == .invalidPackedValue
  | .reserved .., st => st == .illegalOp
  -- not operations: a request never selects them
  | .pack3 .., _ | .pack1 .., _ | .pack2 .., _ | .unpack .., _ | .pv3 .., _ | .pv2 .., _ | .pv1 .., _
  | .pvFieldTooLarge .., _ | .pvNegative .., _ => false

/-- A safe run's step: the machine goes on. -/
def Safe (s : State) : Prop := ∃ t, step s = .next t

/-! ### The invariant -/

/-- A response carries a result exactly when its status is `OK` (R25). -/
def Machine.Response.wf (r : Response) : Bool := (r.status == .ok) == r.result.isSome

/-- What holds inside an ENCODE: its request is on the port, IN_BYTES is the request's `bytes`, the guard has passed,
the input cursor stands at a group boundary or at the end, OUT_VALUES is the encoding of what has been read, and the
output cursor is its length (R26, R43, R47, R54, R111, R122). -/
def Machine.State.EncodingInv (s : State) : Prop :=
  (∃ r rest, s.requests = r :: rest ∧ r.op = 4#3 ∧ s.mem.inBytes = r.bytes) ∧
    s.mem.inBytes.length ≤ 2147483647 ∧ s.pc ≤ s.mem.inBytes.length ∧ (s.pc % 3 = 0 ∨ s.pc = s.mem.inBytes.length) ∧
    s.mem.outValues = encodeSeq (s.mem.inBytes.take s.pc) ∧ s.oc = s.mem.outValues.length ∧
    s.mem.inValues = [] ∧ s.mem.outBytes = []

/-- What holds inside a DECODE: its request is on the port, IN_VALUES is the request's `values`, every value read so
far was accepted, OUT_BYTES is what they hold, and the output cursor is its length (R26, R43, R47, R54, R141). -/
def Machine.State.DecodingInv (s : State) : Prop :=
  (∃ r rest, s.requests = r :: rest ∧ r.op = 5#3 ∧ s.mem.inValues = r.values) ∧
    s.pc ≤ s.mem.inValues.length ∧ decodeSeq (s.mem.inValues.take s.pc) = some s.mem.outBytes ∧
    s.oc = s.mem.outBytes.length ∧ s.mem.inBytes = [] ∧ s.mem.outValues = []

/-- The invariant of the machine: every request is one a caller can make, every response is well formed, the spaces
have their form, and the block is idle, inside an ENCODE or inside a DECODE. -/
def Machine.State.Inv (s : State) : Prop :=
  (∀ r ∈ s.requests, r.wellFormed = true) ∧ (∀ r ∈ s.responses, r.wf = true) ∧ s.mem.wf = true ∧
    match s.activity with
    | .idle => s.Idle
    | .encoding => s.EncodingInv
    | .decoding => s.DecodingInv

end Sys2Proof
end

