-- ==== Sys2Proof/Certificates/Slice0/Obligations.lean ====
section
/-! DEFINITION. The statements for the provers. `respond r s` is the state after the response `r` is given in `s`:
`Obligations.GivingAResponse` writes it out field by field, so that an equation with it says the whole frame.
`Answers r resp` (Safety.lean) is the machine's transaction: every idle block with `r` on its port gives `resp`. -/

open Sys2Proof Sys2Proof.Machine

/-! ### Responses and faults -/

/-- What giving a response does, and that taking a fault is giving a response with no result (60_exceptions.md,
section 4; 10_state.md section 8). That the ports are lists is the model's choice (notes/assumptions/1.md), that the
cursors and spaces stand at 0 and empty between operations too (notes/assumptions/5.md). -/
def Obligations.GivingAResponse : Prop :=
  (∀ (r : Response) (s : State), respond r s =
    { w := s.w, activity := .idle, pc := 0, oc := 0, mem := Memory.empty, requests := s.requests.tail,
      responses := s.responses ++ [r], freeDraws := s.freeDraws }) ∧
  (∀ (st : Status) (s : State), raise st s = respond { status := st, result := none } s)

/-- The status codes (60_exceptions.md R160, decision D7): 0 to 6, each status its own, 7 never. -/
def Obligations.StatusCodesAreDistinct : Prop :=
  Status.code .ok = 0#3 ∧ Status.code .overflowError = 1#3 ∧ Status.code .rangeExceeded = 2#3 ∧
    Status.code .invalidPackedValue = 3#3 ∧ Status.code .domainError = 4#3 ∧ Status.code .workingOverflow = 5#3 ∧
    Status.code .illegalOp = 6#3 ∧ (∀ a b : Status, a.code = b.code → a = b) ∧ ∀ a : Status, a.code ≠ 7#3

/-! ### The digit_field_mux -/

/-- R91. The clause outside the domain is `DOMAIN_ERROR` by R91's own pseudocode (decision D5). -/
def Obligations.ReadFieldAnswersTheDigitGroup : Prop :=
  ∀ (v : WorkingValue) (p w : FieldIndex) (s : State),
    (SupportedField p w → ∃ g : WorkingValue,
      g.toNat = v.toNat / 10 ^ (p.toNat - w.toNat) % 10 ^ w.toNat ∧
      g.toNat = dec p.toNat (p.toNat - w.toNat + 1) v.toNat ∧ g.toNat < 10 ^ w.toNat ∧
      exec (.readField v p w) s = .next (respond (completed (.digitGroup g)) s)) ∧
    (¬SupportedField p w → exec (.readField v p w) s = .next (respond (faulty .domainError) s))

/-- R92. The clause outside the domain is `DOMAIN_ERROR` by R92's own pseudocode (decision D5). -/
def Obligations.ZeroFieldAnswersTheClearedValue : Prop :=
  ∀ (v : WorkingValue) (p w : FieldIndex) (s : State),
    (SupportedField p w → ∃ z : WorkingValue,
      z.toNat + v.toNat / 10 ^ (p.toNat - w.toNat) % 10 ^ w.toNat * 10 ^ (p.toNat - w.toNat) = v.toNat ∧
      z.toNat ≤ v.toNat ∧ exec (.zeroField v p w) s = .next (respond (completed (.value z)) s)) ∧
    (¬SupportedField p w → exec (.zeroField v p w) s = .next (respond (faulty .domainError) s))

/-- R93, with the faults in the order they are checked. `DOMAIN_ERROR` and `WORKING_OVERFLOW` stand in R93's own
pseudocode (decisions D5, D6). `z` is what ZERO_FIELD gives. -/
def Obligations.WriteFieldAnswersTheReplacedValue : Prop :=
  ∀ (v x : WorkingValue) (p w : FieldIndex) (s : State),
    (¬SupportedField p w → exec (.writeField v x p w) s = .next (respond (faulty .domainError) s)) ∧
    (SupportedField p w → 10 ^ w.toNat ≤ x.toNat →
      exec (.writeField v x p w) s = .next (respond (faulty .overflowError) s)) ∧
    (SupportedField p w → x.toNat < 10 ^ w.toNat → ∃ z : WorkingValue, zeroField v p w = .ok z ∧
      (2 ^ 64 - 1 < z.toNat + x.toNat * 10 ^ (p.toNat - w.toNat) →
        exec (.writeField v x p w) s = .next (respond (faulty .workingOverflow) s)) ∧
      (z.toNat + x.toNat * 10 ^ (p.toNat - w.toNat) ≤ 2 ^ 64 - 1 → ∃ r : WorkingValue,
        r.toNat = z.toNat + x.toNat * 10 ^ (p.toNat - w.toNat) ∧
        exec (.writeField v x p w) s = .next (respond (completed (.value r)) s)))

/-- R98: every digit outside the field stands, the field reads `x`; ZERO_FIELD likewise with 0. -/
def Obligations.FieldIsolation : Prop :=
  (∀ (v x v' : WorkingValue) (p w : FieldIndex), writeField v x p w = .ok v' →
    (∀ k : Nat, 1 ≤ k → p.toNat < k ∨ k < p.toNat - w.toNat + 1 → dig v'.toNat k = dig v.toNat k) ∧
    dec p.toNat (p.toNat - w.toNat + 1) v'.toNat = x.toNat ∧ readField v' p w = .ok x) ∧
  (∀ (v z : WorkingValue) (p w : FieldIndex), zeroField v p w = .ok z →
    (∀ k : Nat, 1 ≤ k → p.toNat < k ∨ k < p.toNat - w.toNat + 1 → dig z.toNat k = dig v.toNat k) ∧
    dec p.toNat (p.toNat - w.toNat + 1) z.toNat = 0 ∧ readField z p w = .ok 0#64)

/-- R99, derived there: writing 0 is ZERO_FIELD, on every operand, and it raises `DOMAIN_ERROR` at most. -/
def Obligations.WritingZeroIsZeroField : Prop :=
  ∀ (v : WorkingValue) (p w : FieldIndex), writeField v 0#64 p w = zeroField v p w ∧
    writeField v 0#64 p w ≠ .error .overflowError ∧ writeField v 0#64 p w ≠ .error .workingOverflow

/-- R100, derived there: a second write to the same field replaces the first, and clearing twice is clearing once. -/
def Obligations.SecondWriteReplacesTheFirst : Prop :=
  (∀ (v x v' : WorkingValue) (p w : FieldIndex), writeField v x p w = .ok v' →
    writeField v' x p w = .ok v' ∧ ∀ y, writeField v' y p w = writeField v y p w) ∧
  (∀ (v z : WorkingValue) (p w : FieldIndex), zeroField v p w = .ok z → zeroField z p w = .ok z)

/-- R101, derived there: writes to fields that share no position commute, where none of them faults. -/
def Obligations.DisjointWritesCommute : Prop :=
  ∀ (v x y a b c : WorkingValue) (p₁ w₁ p₂ w₂ : FieldIndex),
    (p₁.toNat < p₂.toNat - w₂.toNat + 1 ∨ p₂.toNat < p₁.toNat - w₁.toNat + 1) →
    writeField v x p₁ w₁ = .ok a → writeField a y p₂ w₂ = .ok b → writeField v y p₂ w₂ = .ok c →
    writeField c x p₁ w₁ = .ok b

/-- R102, derived there: a value is its cleared rest plus the digit group in its place. -/
def Obligations.ValueIsRestPlusField : Prop :=
  ∀ (v z g : WorkingValue) (p w : FieldIndex), zeroField v p w = .ok z → readField v p w = .ok g →
    v.toNat = z.toNat + g.toNat * 10 ^ (p.toNat - w.toNat)

/-- R96 (decision D6): below 10^19 a write never leaves the 64-bit domain, and its result is below 10^19. -/
def Obligations.WorkingOverflowNeedsTwentyDigits : Prop :=
  ∀ (v x : WorkingValue) (p w : FieldIndex), v.toNat < 10 ^ 19 →
    writeField v x p w ≠ .error .workingOverflow ∧ ∀ r, writeField v x p w = .ok r → r.toNat < 10 ^ 19

/-- R97: the criterion of `OVERFLOW_ERROR`, and that no other request is answered with it. That the domain is tested
first, with `DOMAIN_ERROR` outside it, is R93 and R167, the spec's own decision D5 (notes/assumptions/10.md). -/
def Obligations.OverflowErrorCriterion : Prop :=
  ∀ (r : Request) (resp : Response), Answers r resp →
    (resp.status = .overflowError ↔ ∃ v x p w, decodeRequest r = .writeField v x p w ∧ SupportedField p w ∧
      10 ^ w.toNat ≤ x.toNat)

/-! ### The range guard and the reserved codes -/

/-- R110: true exactly above 2147483647, as an unsigned number, status `OK` for every `n`. -/
def Obligations.ExceedsI32Compares : Prop :=
  ∀ (n : WorkingValue) (s : State),
    (n.toNat ≤ 2147483647 → exec (.exceedsI32 n) s = .next (respond (completed (.bool false)) s)) ∧
    (2147483647 < n.toNat → exec (.exceedsI32 n) s = .next (respond (completed (.bool true)) s))

/-- R111: ENCODE applies the guard to its length, DECODE does not use it, and the public operation raises nothing. That
ENCODE then answers the status `RANGE_EXCEEDED` is the spec's own decision D8, that DECODE has no limit is D12
(notes/assumptions/10.md). -/
def Obligations.GuardBoundsTheByteCount : Prop :=
  (∀ (bs : List Byte) (n : WorkingValue), n.toNat = bs.length →
    (Answers { op := 3#3, n := n } (completed (.bool true)) ↔
      Answers (encodeRequest bs) (faulty .rangeExceeded))) ∧
  (∀ (bs : List Byte) (n : WorkingValue), n.toNat = bs.length →
    Answers { op := 3#3, n := n } (completed (.bool false)) →
    ∃ vs, Answers (encodeRequest bs) (completed (.packedValues vs))) ∧
  (∀ (vs : List PackedValue) (resp : Response), Answers (decodeRequestOf vs) resp → resp.status ≠ .rangeExceeded) ∧
  (∀ (n : WorkingValue) (resp : Response), Answers { op := 3#3, n := n } resp → resp.status = .ok)

/-- R166 (decision D20): a reserved code answers `ILLEGAL_OP`, whatever stands on the operand ports. -/
def Obligations.ReservedCodesAreIllegal : Prop :=
  (∀ (low : BitVec 1) (s : State), exec (.reserved low) s = .next (respond (faulty .illegalOp) s)) ∧
  (∀ r : Request, (r.op = 6#3 ∨ r.op = 7#3) ↔ ∃ low, decodeRequest r = .reserved low)

/-! ### ENCODE -/

/-- R121 (decision D8) and the first line of R122: the guard before anything is read, with the empty output beside the
status; else the operation begins with both cursors 0 and an empty output. -/
def Obligations.EncodeGuardsThenBegins : Prop :=
  (∀ (bs : List Byte) (s : State),
    (2147483647 < bs.length → exec (.encodeBytes bs) s = .next (respond (faulty .rangeExceeded) s)) ∧
    (bs.length ≤ 2147483647 → exec (.encodeBytes bs) s =
      .next { s with activity := .encoding, pc := 0, oc := 0,
                     mem := { inBytes := bs, outValues := [], inValues := [], outBytes := [] } })) ∧
  (faulty .rangeExceeded).outValues? = some []

/-- R123: `W` and the value emitted are `10^9 + a·10^6 + b·10^3 + c`; the cursors as in R122; nothing else changes. -/
def Obligations.Pack3EmitsATriple : Prop :=
  ∀ (a b c : Byte) (s : State), ∃ (W : WorkingValue) (v : PackedValue),
    W.toNat = 10 ^ 9 + a.toNat * 10 ^ 6 + b.toNat * 10 ^ 3 + c.toNat ∧ v.toInt = W.toNat ∧
    exec (.pack3 a b c) s = .next { s with w := W, pc := s.pc + 3, oc := s.oc + 1,
                                           mem := { s.mem with outValues := s.mem.outValues ++ [v] } }

/-- R124: `W` and the value emitted are the byte itself; the cursors as in R122; nothing else changes. -/
def Obligations.Pack1EmitsTheByte : Prop :=
  ∀ (a : Byte) (s : State), ∃ (W : WorkingValue) (v : PackedValue),
    W.toNat = a.toNat ∧ v.toInt = W.toNat ∧
    exec (.pack1 a) s = .next { s with w := W, pc := s.pc + 1, oc := s.oc + 1,
                                       mem := { s.mem with outValues := s.mem.outValues ++ [v] } }

/-- R125: `W` and the value emitted are `2·10^9 + a·10^3 + b`; the cursors as in R122; nothing else changes. -/
def Obligations.Pack2EmitsAPair : Prop :=
  ∀ (a b : Byte) (s : State), ∃ (W : WorkingValue) (v : PackedValue),
    W.toNat = 2 * 10 ^ 9 + a.toNat * 10 ^ 3 + b.toNat ∧ v.toInt = W.toNat ∧
    exec (.pack2 a b) s = .next { s with w := W, pc := s.pc + 2, oc := s.oc + 1,
                                         mem := { s.mem with outValues := s.mem.outValues ++ [v] } }

/-- The order of a group step's field writes does not change the working value (42_packing_encoder.md, section 2). -/
def Obligations.FieldWriteOrderIsFree : Prop :=
  ∀ (a b c : Byte) (fs : List FieldWrite),
    (fs.Perm [writeA a, writeB b, writeC c] →
      applyWrites Config.wInit fs = applyWrites Config.wInit [writeA a, writeB b, writeC c]) ∧
    (fs.Perm [writeB a, writeC b, writeTag 2#64] →
      applyWrites Config.wInit fs = applyWrites Config.wInit [writeB a, writeC b, writeTag 2#64]) ∧
    (fs.Perm [writeC a, writeTag 0#64] →
      applyWrites Config.wInit fs = applyWrites Config.wInit [writeC a, writeTag 0#64])

/-- R44: the first byte of a group stands in the highest field, and DECODE emits in the same order. -/
def Obligations.FirstByteInTheHighestField : Prop :=
  (∀ (a b c : Byte) (s t : State), exec (.pack3 a b c) s = .next t → ∃ v,
    t.mem.outValues = s.mem.outValues ++ [v] ∧ readField (zextPacked v) 9#5 3#5 = .ok (zextByte a) ∧
    readField (zextPacked v) 6#5 3#5 = .ok (zextByte b) ∧ readField (zextPacked v) 3#5 3#5 = .ok (zextByte c) ∧
    unpack v = .ok [a, b, c]) ∧
  (∀ (a b : Byte) (s t : State), exec (.pack2 a b) s = .next t → ∃ v,
    t.mem.outValues = s.mem.outValues ++ [v] ∧ readField (zextPacked v) 6#5 3#5 = .ok (zextByte a) ∧
    readField (zextPacked v) 3#5 3#5 = .ok (zextByte b) ∧ unpack v = .ok [a, b]) ∧
  (∀ (a : Byte) (s t : State), exec (.pack1 a) s = .next t → ∃ v,
    t.mem.outValues = s.mem.outValues ++ [v] ∧ readField (zextPacked v) 3#5 3#5 = .ok (zextByte a) ∧
    unpack v = .ok [a])

/-- ENCODE from request to response (R120 to R122, R133): with `n` bytes that pass the guard, one step begins it, each
of the `(n + 2) div 3` groups takes one, and one step gives the response. That a group is one step is the model's
choice (notes/assumptions/6.md). -/
def Obligations.EncodeRespondsAfterItsGroups : Prop :=
  ∀ (s : State) (r : Request) (rest : List Request), s.Idle → s.requests = r :: rest → r.op = 4#3 →
    r.bytes.length ≤ 2147483647 →
    ∃ t, run ((r.bytes.length + 2) / 3 + 2) s = .next t ∧ t.Idle ∧ t.requests = rest ∧
      t.responses = s.responses ++ [completed (.packedValues (encodeSeq r.bytes))]

/-- R127: the i-th value comes from the bytes at 3i, 3i+1, 3i+2, the last one from the short group. -/
def Obligations.EncodeKeepsInputOrder : Prop :=
  ∀ (bs : List Byte) (vs : List PackedValue), Answers (encodeRequest bs) (completed (.packedValues vs)) →
    (∀ (i : Nat) (a b c : Byte), bs[3 * i]? = some a → bs[3 * i + 1]? = some b → bs[3 * i + 2]? = some c →
      ∃ v, vs[i]? = some v ∧ v.toInt = 10 ^ 9 + a.toNat * 10 ^ 6 + b.toNat * 10 ^ 3 + c.toNat) ∧
    (∀ a : Byte, bs.length % 3 = 1 → bs[bs.length - 1]? = some a →
      ∃ v, vs[bs.length / 3]? = some v ∧ v.toInt = a.toNat) ∧
    (∀ a b : Byte, bs.length % 3 = 2 → bs[bs.length - 2]? = some a → bs[bs.length - 1]? = some b →
      ∃ v, vs[bs.length / 3]? = some v ∧ v.toInt = 2 * 10 ^ 9 + a.toNat * 10 ^ 3 + b.toNat)

/-- R128 and R132, derived there: the number of values, the empty input, concatenation at a group boundary, and that
different inputs never give the same output. -/
def Obligations.EncodeLengthAndInjectivity : Prop :=
  (∀ (bs : List Byte) (vs : List PackedValue), Answers (encodeRequest bs) (completed (.packedValues vs)) →
    vs.length = (bs.length + 2) / 3) ∧
  Answers (encodeRequest []) (completed (.packedValues [])) ∧
  (∀ (x y : List Byte) (vx vy vxy : List PackedValue), x.length % 3 = 0 →
    Answers (encodeRequest x) (completed (.packedValues vx)) →
    Answers (encodeRequest y) (completed (.packedValues vy)) →
    Answers (encodeRequest (x ++ y)) (completed (.packedValues vxy)) → vxy = vx ++ vy) ∧
  (∀ (x y : List Byte) (vs : List PackedValue), Answers (encodeRequest x) (completed (.packedValues vs)) →
    Answers (encodeRequest y) (completed (.packedValues vs)) → x = y)

/-- R130 with R66 and R67, derived there: every value emitted is canonical and in one of the three ranges, and every
canonical value is emitted for some input. -/
def Obligations.EncodeEmitsExactlyTheCanonicalValues : Prop :=
  (∀ (bs : List Byte) (vs : List PackedValue), Answers (encodeRequest bs) (completed (.packedValues vs)) →
    ∀ v ∈ vs, Canonical v ∧ v.toInt = v.toNat ∧
      (v.toNat ≤ 255 ∨ (1000000000 ≤ v.toNat ∧ v.toNat ≤ 1255255255) ∨
        (2000000000 ≤ v.toNat ∧ v.toNat ≤ 2000255255))) ∧
  (∀ v : PackedValue, Canonical v → ∃ bs, Answers (encodeRequest bs) (completed (.packedValues [v])))

/-- R131: the tag of a value that ENCODE emits is fixed by the number of bytes in its group, and the tag of an
accepted value fixes how many bytes DECODE extracts. -/
def Obligations.ModeTagFixesTheByteCount : Prop :=
  (∀ (bs : List Byte) (vs : List PackedValue), Answers (encodeRequest bs) (completed (.packedValues vs)) →
    ∀ (i : Nat) (v : PackedValue), vs[i]? = some v →
      ∃ tag, readField (zextPacked v) 10#5 1#5 = .ok tag ∧
        (3 * i + 3 ≤ bs.length → tag = 1#64) ∧ (3 * i + 2 = bs.length → tag = 2#64) ∧
        (3 * i + 1 = bs.length → tag = 0#64)) ∧
  (∀ (v : PackedValue) (out : List Byte), unpack v = .ok out →
    ∃ tag, readField (zextPacked v) 10#5 1#5 = .ok tag ∧
      ((tag = 1#64 ∧ out.length = 3) ∨ (tag = 2#64 ∧ out.length = 2) ∨ (tag = 0#64 ∧ out.length = 1)))

/-! ### DECODE -/

/-- The first line of R141: both cursors 0, an empty output, no guard on the length (R140, R41 decision D12). -/
def Obligations.DecodeBegins : Prop :=
  ∀ (vs : List PackedValue) (s : State), exec (.decodeValues vs) s =
    .next { s with activity := .decoding, pc := 0, oc := 0,
                   mem := { inBytes := [], outValues := [], inValues := vs, outBytes := [] } }

/-- UNPACK on every packed value (43_unpacking_decoder.md sections 2 and 3): the bytes of the fields its tag selects,
emitted in order, the cursors as in R141; or the fault. The faults are decisions D9, D10. -/
def Obligations.UnpackYieldsTheSelectedFields : Prop :=
  ∀ (v : PackedValue) (s : State),
    (0 ≤ v.toInt → dec 10 10 v.toNat = 1 → ∀ a b c : Byte, a.toNat = dec 9 7 v.toNat → b.toNat = dec 6 4 v.toNat →
      c.toNat = dec 3 1 v.toNat → exec (.unpack v) s =
        .next { s with pc := s.pc + 1, oc := s.oc + 3,
                       mem := { s.mem with outBytes := s.mem.outBytes ++ [a, b, c] } }) ∧
    (0 ≤ v.toInt → dec 10 10 v.toNat = 2 → ∀ b c : Byte, b.toNat = dec 6 4 v.toNat → c.toNat = dec 3 1 v.toNat →
      exec (.unpack v) s =
        .next { s with pc := s.pc + 1, oc := s.oc + 2,
                       mem := { s.mem with outBytes := s.mem.outBytes ++ [b, c] } }) ∧
    (0 ≤ v.toInt → dec 10 10 v.toNat = 0 → ∀ c : Byte, c.toNat = dec 3 1 v.toNat → exec (.unpack v) s =
        .next { s with pc := s.pc + 1, oc := s.oc + 1,
                       mem := { s.mem with outBytes := s.mem.outBytes ++ [c] } }) ∧
    (v.toInt < 0 ∨ (dec 10 10 v.toNat = 1 ∧ 255 < dec 9 7 v.toNat) ∨
        (dec 10 10 v.toNat ≠ 0 ∧ 255 < dec 6 4 v.toNat) ∨ 255 < dec 3 1 v.toNat →
      exec (.unpack v) s = .next (respond (faulty .invalidPackedValue) s))

/-- UNPACK does what the class of its operand does: the pseudocode of R142 agrees with the tables of R148 and R149
(derived there). -/
def Obligations.UnpackRunsItsClass : Prop :=
  ∀ (v : PackedValue) (s : State), exec (.unpack v) s = exec (decodePackedValue v) s

/-- What each class of packed value does (43_unpacking_decoder.md section 3): the accepted ones emit their bytes,
the illegal ones are the fault. -/
def Obligations.PackedValueClassesYield : Prop :=
  ∀ (s : State),
    (∀ a b c, exec (.pv3 a b c) s =
      .next { s with pc := s.pc + 1, oc := s.oc + 3,
                     mem := { s.mem with outBytes := s.mem.outBytes ++ [a, b, c] } }) ∧
    (∀ a b c, exec (.pv2 a b c) s =
      .next { s with pc := s.pc + 1, oc := s.oc + 2, mem := { s.mem with outBytes := s.mem.outBytes ++ [b, c] } }) ∧
    (∀ a b c, exec (.pv1 a b c) s =
      .next { s with pc := s.pc + 1, oc := s.oc + 1, mem := { s.mem with outBytes := s.mem.outBytes ++ [c] } }) ∧
    (∀ t a b c, exec (.pvFieldTooLarge t a b c) s = .next (respond (faulty .invalidPackedValue) s)) ∧
    (∀ v, exec (.pvNegative v) s = .next (respond (faulty .invalidPackedValue) s))

/-- R152: a value of at most 255 has tag 0, so the second half of step 4's condition never decides alone. -/
def Obligations.SmallValuesHaveTagZero : Prop :=
  ∀ u : WorkingValue, u.toNat ≤ 255 → readField u 10#5 1#5 = .ok 0#64

/-- DECODE from request to response (R140, R141, R147, R153), every element accepted: one step begins it, each value
takes one, and one step gives the response. That a value is one step is the model's choice
(notes/assumptions/6.md). -/
def Obligations.DecodeRespondsAfterItsValues : Prop :=
  ∀ (s : State) (r : Request) (rest : List Request) (bs : List Byte), s.Idle → s.requests = r :: rest → r.op = 5#3 →
    decodeSeq r.values = some bs →
    ∃ t, run (r.values.length + 2) s = .next t ∧ t.Idle ∧ t.requests = rest ∧
      t.responses = s.responses ++ [completed (.bytes bs)]

/-- R146 (decision D11): the first illegal element, at index `j`, ends DECODE at once with no output; the elements
after it take no step. -/
def Obligations.DecodeStopsAtTheFirstIllegalValue : Prop :=
  ∀ (s : State) (r : Request) (rest : List Request) (j : Nat) (v : PackedValue), s.Idle → s.requests = r :: rest →
    r.op = 5#3 → r.values[j]? = some v → bytesOf v = none →
    (∀ (i : Nat) (u : PackedValue), i < j → r.values[i]? = some u → bytesOf u ≠ none) →
    ∃ t, run (j + 2) s = .next t ∧ t.Idle ∧ t.requests = rest ∧
      t.responses = s.responses ++ [faulty .invalidPackedValue]

/-- R147, derived there: each value is decoded by itself, and the output has between n and 3n bytes. -/
def Obligations.DecodeConcatenates : Prop :=
  (∀ (x y : List PackedValue) (bx bys : List Byte), Answers (decodeRequestOf x) (completed (.bytes bx)) →
    Answers (decodeRequestOf y) (completed (.bytes bys)) →
    Answers (decodeRequestOf (x ++ y)) (completed (.bytes (bx ++ bys)))) ∧
  Answers (decodeRequestOf []) (completed (.bytes [])) ∧
  (∀ (x : List PackedValue) (bx : List Byte), Answers (decodeRequestOf x) (completed (.bytes bx)) →
    x.length ≤ bx.length ∧ bx.length ≤ 3 * x.length)

/-! ### The round trip -/

/-- R150: what ENCODE answers, DECODE answers back, both with `OK`; and the same for each group step. -/
def Obligations.DecodeUndoesEncode : Prop :=
  (∀ bs : List Byte, bs.length ≤ 2147483647 → ∃ vs, Answers (encodeRequest bs) (completed (.packedValues vs)) ∧
    Answers (decodeRequestOf vs) (completed (.bytes bs))) ∧
  (∀ a b c : Byte, unpack (packed3 a b c) = .ok [a, b, c]) ∧ (∀ a b : Byte, unpack (packed2 a b) = .ok [a, b]) ∧
  (∀ a : Byte, unpack (packed1 a) = .ok [a])

/-- R151, derived there: the other direction holds on encoder output, and fails elsewhere. -/
def Obligations.EncodeUndoesDecodeOnlyOnItsOutput : Prop :=
  (∀ (b bs : List Byte) (vs : List PackedValue), Answers (encodeRequest b) (completed (.packedValues vs)) →
    Answers (decodeRequestOf vs) (completed (.bytes bs)) →
    Answers (encodeRequest bs) (completed (.packedValues vs))) ∧
  (Answers (decodeRequestOf [1255#32]) (completed (.bytes [255#8])) ∧
    Answers (encodeRequest [255#8]) (completed (.packedValues [255#32]))) ∧
  (Answers (decodeRequestOf [1#32, 2#32]) (completed (.bytes [1#8, 2#8])) ∧
    Answers (encodeRequest [1#8, 2#8]) (completed (.packedValues [2000001002#32])))

/-- R197, derived there: an input encoded in two pieces decodes to the right bytes, and takes no fewer values. -/
def Obligations.PiecesDecodeToTheWhole : Prop :=
  ∀ (x y : List Byte) (vx vy : List PackedValue), Answers (encodeRequest x) (completed (.packedValues vx)) →
    Answers (encodeRequest y) (completed (.packedValues vy)) →
    Answers (decodeRequestOf (vx ++ vy)) (completed (.bytes (x ++ y))) ∧
    ∀ vxy, Answers (encodeRequest (x ++ y)) (completed (.packedValues vxy)) → vxy.length ≤ vx.length + vy.length

/-- R12, the source's own invariants, each over the machine's own operations: the round trip for every input that
passes the guard (R150); field isolation of every write and every clear that does not fault (R98); mode determinism,
on what ENCODE emits and on what UNPACK accepts (R131); and the load-bearing bound at every packed value (R67, derived
there). Which writes fault rests on decisions D5 and D6 (notes/assumptions/10.md). -/
def Obligations.SourceInvariants : Prop :=
  (∀ bs : List Byte, bs.length ≤ 2147483647 → RoundTrips bs) ∧
  (∀ (v x v' : WorkingValue) (p w : FieldIndex), writeField v x p w = .ok v' → FieldIsolated v v' x p w) ∧
  (∀ (v z : WorkingValue) (p w : FieldIndex), zeroField v p w = .ok z → FieldIsolated v z 0#64 p w) ∧
  (∀ (bs : List Byte) (vs : List PackedValue), Answers (encodeRequest bs) (completed (.packedValues vs)) →
    ∀ (i : Nat) (v : PackedValue), vs[i]? = some v →
      tagByteCount (modeTag v) = some (groupByteCount bs.length i)) ∧
  (∀ (v : PackedValue) (out : List Byte), unpack v = .ok out → tagByteCount (modeTag v) = some out.length) ∧
  ∀ v : PackedValue, LoadBearingBound v

/-! ### Encodings -/

/-- For every well-formed instruction of the table, with every operand its encoding admits, decoding its encoding
gives it back (30_encoding.md). -/
def Obligations.DecodeUndoesTheEncoder : Prop :=
  ∀ i : Instr, i.wellFormed = true → decode (encode i) = .ok i

/-- The other direction on packed values: each of the 2^32 has exactly one class, which is well formed and whose
encoding is the value (30_encoding.md section 5). -/
def Obligations.EveryPackedValueHasOneClass : Prop :=
  ∀ v : PackedValue, (decodePackedValue v).wellFormed = true ∧ encode (decodePackedValue v) = .digits v

/-- R60: every number from 0 to 9999999999 is `T·10^9 + A·10^6 + B·10^3 + C` in exactly one way, and the four groups
are the digits at positions 10, 9..7, 6..4, 3..1. -/
def Obligations.DigitGroupsDecomposeTheNumber : Prop :=
  ∀ v t a b c : Nat, v ≤ 9999999999 →
    ((t ≤ 9 ∧ a ≤ 999 ∧ b ≤ 999 ∧ c ≤ 999 ∧ v = t * 10 ^ 9 + a * 10 ^ 6 + b * 10 ^ 3 + c) ↔
      (t = dec 10 10 v ∧ a = dec 9 7 v ∧ b = dec 6 4 v ∧ c = dec 3 1 v))

/-- The select codes and the operands they take (R24, R73, decisions D3, D4): every other port is ignored. -/
def Obligations.RequestsDecodeByTheirCode : Prop :=
  ∀ (v x n : WorkingValue) (p w : FieldIndex) (bs : List Byte) (vs : List PackedValue),
    decodeRequest ⟨0b000#3, v, x, p, w, n, bs, vs⟩ = .readField v p w ∧
    decodeRequest ⟨0b001#3, v, x, p, w, n, bs, vs⟩ = .zeroField v p w ∧
    decodeRequest ⟨0b010#3, v, x, p, w, n, bs, vs⟩ = .writeField v x p w ∧
    decodeRequest ⟨0b011#3, v, x, p, w, n, bs, vs⟩ = .exceedsI32 n ∧
    decodeRequest ⟨0b100#3, v, x, p, w, n, bs, vs⟩ = .encodeBytes bs ∧
    decodeRequest ⟨0b101#3, v, x, p, w, n, bs, vs⟩ = .decodeValues vs ∧
    decodeRequest ⟨0b110#3, v, x, p, w, n, bs, vs⟩ = .reserved 0#1 ∧
    decodeRequest ⟨0b111#3, v, x, p, w, n, bs, vs⟩ = .reserved 1#1

/-- A few words written out from the spec's encodings decode to what they stand for: a select code and the packed
values of 95_test_vectors.md section 6. -/
def Obligations.WrittenWordsDecode : Prop :=
  decodeTableWord 8 0b100 = some (.encodeBytes []) ∧ decodeTableWord 8 0b111 = some (.reserved 1#1) ∧
    decodeTableWord 32 1009010011 = some (.pv3 9#8 10#8 11#8) ∧
    decodeTableWord 32 2001002003 = some (.pv2 1 2#8 3#8) ∧ decodeTableWord 32 1255 = some (.pv1 0 1 255#8) ∧
    decodeTableWord 32 256 = some (.pvFieldTooLarge 0 0 0 256) ∧
    decodeTableWord 32 (2 ^ 32 - 1) = some (.pvNegative (-1)) ∧
    decode (.bytes [105#8, 106#8]) = .ok (.pack2 105#8 106#8)

/-! ### The machine -/

/-- A step of the idle block is the decoded instruction of the request on its port, and nothing else. -/
def Obligations.StepRunsTheRequestOnThePort : Prop :=
  ∀ (s : State) (r : Request) (rest : List Request) (i : Instr), s.activity = .idle → s.requests = r :: rest →
    decode (.request r) = .ok i → step s = exec i s

/-- A step inside ENCODE is the group step that the next bytes decode to, after which `W` is unspecified: a free value
(notes/assumptions/4.md). At the end of the input it gives the response (R122). -/
def Obligations.StepRunsTheEncoderGroup : Prop :=
  ∀ s : State, s.activity = .encoding →
    (s.pc < s.mem.inBytes.length → ∃ i t, decode (.bytes ((s.mem.inBytes.drop s.pc).take 3)) = .ok i ∧
      exec i s = .next t ∧
      step s = .next { t with w := Config.unspecifiedW t.freeDraws, freeDraws := t.freeDraws + 1 }) ∧
    (s.mem.inBytes.length ≤ s.pc → step s = .next (respond (completed (.packedValues s.mem.outValues)) s))

/-- A step inside DECODE is UNPACK of the next element; at the end of the input it gives the response (R141). -/
def Obligations.StepRunsTheDecoderGroup : Prop :=
  ∀ s : State, s.activity = .decoding →
    (∀ v, s.mem.inValues[s.pc]? = some v → step s = exec (.unpack v) s) ∧
    (s.mem.inValues.length ≤ s.pc → step s = .next (respond (completed (.bytes s.mem.outBytes)) s))

/-- With no request the idle block waits, unchanged (70_reset_and_hazards.md section 1; notes/assumptions/2.md). -/
def Obligations.IdleBlockWaits : Prop :=
  ∀ s : State, s.activity = .idle → s.requests = [] → step s = .next s

/-- The block cannot hang and cannot be stuck (R180, derived there): from every state, reachable or not, the machine
goes on. -/
def Obligations.EveryStepGoesOn : Prop :=
  ∀ s : State, Safe s

/-- A request stays on its port until its response is given (R177, decision D13), a step gives at most one response,
a response leaves the block idle (R172) and carries a result exactly when its status is `OK` (R25, decision D7). -/
def Obligations.OneResponseForEachRequest : Prop :=
  ∀ s t : State, step s = .next t →
    (t.requests = s.requests ∧ t.responses = s.responses) ∨
    (t.requests = s.requests.tail ∧ t.Idle ∧ ∃ resp : Response, t.responses = s.responses ++ [resp] ∧
      (resp.status = .ok ↔ resp.result.isSome = true))

/-- Inside a batch operation (R26 decision D17, R43 and R47 derived): the input is never modified, both cursors only
move forward and the input cursor not past the end, the output only grows at its end. -/
def Obligations.BatchOperationsMoveForward : Prop :=
  ∀ s t : State, step s = .next t → s.activity ≠ .idle → t.activity ≠ .idle →
    t.activity = s.activity ∧ t.mem.inBytes = s.mem.inBytes ∧ t.mem.inValues = s.mem.inValues ∧
    s.pc < t.pc ∧ s.oc < t.oc ∧ s.mem.outValues <+: t.mem.outValues ∧ s.mem.outBytes <+: t.mem.outBytes ∧
    (s.activity = .encoding → t.pc ≤ s.mem.inBytes.length ∧ t.mem.outBytes = s.mem.outBytes) ∧
    (s.activity = .decoding → t.pc ≤ s.mem.inValues.length ∧ t.mem.outValues = s.mem.outValues)

/-- `W` is never read before it is written (R22, derived there): two states that differ in `W` alone step to states
that differ in `W` alone. So nothing rests on its value at reset (notes/assumptions/3.md). -/
def Obligations.WorkingValueIsNeverObserved : Prop :=
  ∀ (s : State) (w : WorkingValue), ∃ (t : State) (w' : WorkingValue), step s = .next t ∧
    step { s with w := w } = .next { t with w := w' }

/-- `W` is written only by PACK3, PACK1 and PACK2 (R22, derived there). -/
def Obligations.OnlyPackStepsWriteTheWorkingValue : Prop :=
  ∀ (i : Instr) (s t : State), exec i s = .next t →
    t.w = s.w ∨ (∃ a b c, i = .pack3 a b c) ∨ (∃ a, i = .pack1 a) ∨ ∃ a b, i = .pack2 a b

/-- Which operation can end with which status (R162, derived there). -/
def Obligations.StatusesOfEachOperation : Prop :=
  ∀ (r : Request) (resp : Response), Answers r resp → mayEndWith (decodeRequest r) resp.status = true

/-- Every request, whatever its operands, is answered after finitely many steps (R180), with the response that the
pure function `response` gives of the request alone. The faults of that function are the spec's own decisions:
`DOMAIN_ERROR` D5, `WORKING_OVERFLOW` D6, `RANGE_EXCEEDED` D8, the illegal packed values D9, D10 and D11, the reserved
codes D20 (notes/assumptions/10.md). -/
def Obligations.EveryRequestIsAnswered : Prop :=
  ∀ r : Request, Answers r (response r)

/-- R20: the response depends on the request only. Whatever two idle blocks have done before, whatever waits behind
the request, and however long each is run, they give the same response to it. -/
def Obligations.ResponseDependsOnTheRequestOnly : Prop :=
  ∀ (s₁ s₂ t₁ t₂ : State) (r : Request) (rest₁ rest₂ : List Request) (a b : Response) (j k : Nat),
    s₁.Idle → s₂.Idle → s₁.requests = r :: rest₁ → s₂.requests = r :: rest₂ →
    run j s₁ = .next t₁ → run k s₂ = .next t₂ →
    t₁.responses = s₁.responses ++ [a] → t₂.responses = s₂.responses ++ [b] → a = b

/-- A program is a list of requests (95_test_vectors.md section 7): it is served in order (R51, decision D13), every
request with its response, and leaves the block idle. The list is notes/assumptions/1.md, its load 2.md. -/
def Obligations.ProgramsAreServedInOrder : Prop :=
  ∀ s : State, s.Idle → ∃ k t, run k s = .next t ∧ t.Idle ∧ t.requests = [] ∧
    t.responses = s.responses ++ s.requests.map response

/-- The invariant holds after reset. The values it rests on that the spec does not give are log 3 and 5. -/
def Obligations.ResetMeetsTheInvariant : Prop :=
  State.reset.Inv ∧ State.reset.Idle ∧ State.reset.requests = [] ∧ State.reset.responses = []

/-- Every step keeps the invariant: inside ENCODE the output is the encoding of exactly the bytes read, inside DECODE
it is exactly the bytes of the values read, the input is the request's, and idle means no operation in progress. -/
def Obligations.EveryStepKeepsTheInvariant : Prop :=
  ∀ s t : State, s.Inv → step s = .next t → t.Inv

/-- A reset from outside (R190, R191, decision D14): idle, the operation in progress abandoned without a response and
without output, `W` unspecified (a free value). -/
def Obligations.ExternalResetAbandonsTheOperation : Prop :=
  ∀ s : State, (externalReset s).Idle ∧ (externalReset s).responses = s.responses ∧
    (s.activity = .idle → (externalReset s).requests = s.requests) ∧
    (s.activity ≠ .idle → (externalReset s).requests = s.requests.tail) ∧
    (externalReset s).w = Config.unspecifiedW s.freeDraws
end

