-- ==== Sys2Proof/Laws/DigitField.lean ====
section
/-! SUPPORT. Everything the digit-field functions can do (40_digit_field_mux.md R91 to R97), and the two batch
compositions of them: the encoder's field writes and the decoder's UNPACK. -/

namespace Sys2Proof.Machine

/-! ### Plain numbers -/

theorem readDigits_lt (v p w : Nat) : readDigits v p w < 10 ^ w := Nat.mod_lt _ (Nat.pow_pos (by decide))

theorem readDigits_mul_le (v p w : Nat) : readDigits v p w * 10 ^ (p - w) ≤ v :=
  Nat.le_trans (Nat.mul_le_mul_right _ (Nat.mod_le _ _)) (Nat.div_mul_le_self _ _)

theorem readDigits_le (v p w : Nat) : readDigits v p w ≤ v :=
  Nat.le_trans (Nat.mod_le _ _) (Nat.div_le_self _ _)

theorem zeroDigits_le (v p w : Nat) : zeroDigits v p w ≤ v := Nat.sub_le _ _

/-- `dec` is the digit group that the field (hi, hi - lo + 1) names. -/
theorem dec_eq_readDigits {hi lo : Nat} (h : 1 ≤ lo ∧ lo ≤ hi) (v : Nat) :
    dec hi lo v = readDigits v hi (hi - lo + 1) := by
  have : hi - (hi - lo + 1) = lo - 1 := by omega
  simp [dec, readDigits, this]

/-- The domain check is the spec's. -/
theorem inFieldDomain_iff (p w : FieldIndex) : inFieldDomain p w = true ↔ SupportedField p w := by
  unfold inFieldDomain
  exact decide_eq_true_iff

/-! ### READ_FIELD, ZERO_FIELD, WRITE_FIELD as functions -/

/-- Inside the domain READ_FIELD gives the digit group, as a number, without truncation. -/
theorem readField_of_supported (v : WorkingValue) {p w : FieldIndex} (h : SupportedField p w) :
    ∃ g, readField v p w = .ok g ∧ g.toNat = readDigits v.toNat p.toNat w.toNat := by
  refine ⟨BitVec.ofNat 64 (readDigits v.toNat p.toNat w.toNat), by simp [readField, (inFieldDomain_iff p w).2 h], ?_⟩
  simp only [BitVec.toNat_ofNat]
  exact Nat.mod_eq_of_lt (Nat.lt_of_le_of_lt (readDigits_le _ _ _) v.isLt)

theorem readField_of_unsupported (v : WorkingValue) {p w : FieldIndex} (h : ¬SupportedField p w) :
    readField v p w = .error .domainError := by
  simp [readField, mt (inFieldDomain_iff p w).1 h]

/-- Inside the domain ZERO_FIELD gives the value with the group cleared, without truncation. -/
theorem zeroField_of_supported (v : WorkingValue) {p w : FieldIndex} (h : SupportedField p w) :
    ∃ z, zeroField v p w = .ok z ∧ z.toNat = zeroDigits v.toNat p.toNat w.toNat := by
  refine ⟨BitVec.ofNat 64 (zeroDigits v.toNat p.toNat w.toNat), by simp [zeroField, (inFieldDomain_iff p w).2 h], ?_⟩
  simp only [BitVec.toNat_ofNat]
  exact Nat.mod_eq_of_lt (Nat.lt_of_le_of_lt (zeroDigits_le _ _ _) v.isLt)

theorem zeroField_of_unsupported (v : WorkingValue) {p w : FieldIndex} (h : ¬SupportedField p w) :
    zeroField v p w = .error .domainError := by
  simp [zeroField, mt (inFieldDomain_iff p w).1 h]

/-- Every way WRITE_FIELD can end, in the order of its checks. -/
theorem writeField_cases (v x : WorkingValue) (p w : FieldIndex) :
    (¬SupportedField p w ∧ writeField v x p w = .error .domainError) ∨
    (SupportedField p w ∧ 10 ^ w.toNat ≤ x.toNat ∧ writeField v x p w = .error .overflowError) ∨
    (SupportedField p w ∧ x.toNat < 10 ^ w.toNat ∧ 2 ^ 64 ≤ writeDigits v.toNat x.toNat p.toNat w.toNat ∧
      writeField v x p w = .error .workingOverflow) ∨
    (SupportedField p w ∧ x.toNat < 10 ^ w.toNat ∧ ∃ r, writeField v x p w = .ok r ∧
      r.toNat = writeDigits v.toNat x.toNat p.toNat w.toNat) := by
  by_cases hd : SupportedField p w
  · have hd' := (inFieldDomain_iff p w).2 hd
    by_cases hx : 10 ^ w.toNat ≤ x.toNat
    · exact .inr (.inl ⟨hd, hx, by simp [writeField, hd', needsMoreDigits, hx]⟩)
    · by_cases hr : 2 ^ 64 ≤ writeDigits v.toNat x.toNat p.toNat w.toNat
      · refine .inr (.inr (.inl ⟨hd, by omega, hr, ?_⟩))
        have hl : leavesWorkingRange (writeDigits v.toNat x.toNat p.toNat w.toNat) = true := by
          simp only [leavesWorkingRange, decide_eq_true_eq]; omega
        simp [writeField, hd', needsMoreDigits, hx, hl]
      · refine .inr (.inr (.inr ⟨hd, by omega, BitVec.ofNat 64 (writeDigits v.toNat x.toNat p.toNat w.toNat), ?_, ?_⟩))
        · have hl : leavesWorkingRange (writeDigits v.toNat x.toNat p.toNat w.toNat) = false := by
            simp only [leavesWorkingRange, decide_eq_false_iff_not]; omega
          simp [writeField, hd', needsMoreDigits, hx, hl]
        · simp only [BitVec.toNat_ofNat]
          exact Nat.mod_eq_of_lt (by omega)
  · have hd' := mt (inFieldDomain_iff p w).1 hd
    exact .inl ⟨hd, by simp [writeField, hd']⟩

/-- What a WRITE_FIELD that answers a number has checked and computed. -/
theorem writeField_ok {v x r : WorkingValue} {p w : FieldIndex} (h : writeField v x p w = .ok r) :
    SupportedField p w ∧ x.toNat < 10 ^ w.toNat ∧ r.toNat = writeDigits v.toNat x.toNat p.toNat w.toNat := by
  rcases writeField_cases v x p w with ⟨_, e⟩ | ⟨_, _, e⟩ | ⟨_, _, _, e⟩ | ⟨hd, hx, r', e, hr⟩ <;> rw [e] at h
  · cases h
  · cases h
  · cases h
  · cases h; exact ⟨hd, hx, hr⟩

/-- A write whose exact result fits answers it. -/
theorem writeField_of_fits {v x : WorkingValue} {p w : FieldIndex} {r : Nat} (hd : SupportedField p w)
    (hx : x.toNat < 10 ^ w.toNat) (hr : writeDigits v.toNat x.toNat p.toNat w.toNat = r) (h : r < 2 ^ 64) :
    writeField v x p w = .ok (BitVec.ofNat 64 r) := by
  rcases writeField_cases v x p w with ⟨h', _⟩ | ⟨_, h', _⟩ | ⟨_, _, h', _⟩ | ⟨_, _, r', e, hr'⟩
  · exact absurd hd h'
  · omega
  · omega
  · rw [e]
    congr 1
    apply BitVec.eq_of_toNat_eq
    simp only [BitVec.toNat_ofNat]
    omega

/-! ### The encoder's field writes -/

theorem zextByte_toNat (b : Byte) : (zextByte b).toNat = b.toNat := by
  have := b.isLt
  simp only [zextByte, BitVec.truncate_eq_setWidth, BitVec.toNat_setWidth]
  omega

theorem castToPacked_ofNat (n : Nat) : castToPacked (BitVec.ofNat 64 n) = BitVec.ofNat 32 n := by
  apply BitVec.eq_of_toNat_eq
  simp only [castToPacked, BitVec.truncate_eq_setWidth, BitVec.toNat_setWidth, BitVec.toNat_ofNat]
  omega

/-- One write of a number that fits its field into a working value, in closed form. -/
theorem applyWrites_cons {n r : Nat} {f : FieldWrite} {fs : List FieldWrite} (hn : n < 2 ^ 64)
    (hd : SupportedField f.position f.width) (hx : f.digits.toNat < 10 ^ f.width.toNat)
    (hr : writeDigits n f.digits.toNat f.position.toNat f.width.toNat = r) (h : r < 2 ^ 64) :
    applyWrites (BitVec.ofNat 64 n) (f :: fs) = applyWrites (BitVec.ofNat 64 r) fs := by
  have hn' : (BitVec.ofNat 64 n).toNat = n := by simp only [BitVec.toNat_ofNat]; omega
  simp only [applyWrites]
  rw [writeField_of_fits hd hx (by rw [hn']; exact hr) h]

/-- PACK3's writes give the closed form of R123. -/
theorem applyWrites_pack3 (a b c : Byte) :
    applyWrites Config.wInit [writeA a, writeB b, writeC c] =
      .ok (BitVec.ofNat 64 (packedNumber 1 a.toNat b.toNat c.toNat)) := by
  have ha := a.isLt; have hb := b.isLt; have hc := c.isLt
  change applyWrites (BitVec.ofNat 64 1000000000) _ = _
  rw [applyWrites_cons (r := 1000000000 + a.toNat * 10 ^ 6), applyWrites_cons (r := 1000000000 + a.toNat * 10 ^ 6 + b.toNat * 10 ^ 3),
    applyWrites_cons (r := 1000000000 + a.toNat * 10 ^ 6 + b.toNat * 10 ^ 3 + c.toNat)]
  · rfl
  all_goals try simp only [writeA, writeB, writeC, zextByte_toNat, Config.aPos, Config.bPos, Config.cPos, Config.fieldWidth, SupportedField,
      writeDigits, zeroDigits, readDigits, BitVec.toNat_ofNat, Nat.reducePow, Nat.reduceMod, Nat.reduceSub]
  all_goals omega

/-- PACK2's writes give the closed form of R125. -/
theorem applyWrites_pack2 (a b : Byte) :
    applyWrites Config.wInit [writeB a, writeC b, writeTag 2#64] =
      .ok (BitVec.ofNat 64 (packedNumber 2 0 a.toNat b.toNat)) := by
  have ha := a.isLt; have hb := b.isLt
  change applyWrites (BitVec.ofNat 64 1000000000) _ = _
  rw [applyWrites_cons (r := 1000000000 + a.toNat * 10 ^ 3), applyWrites_cons (r := 1000000000 + a.toNat * 10 ^ 3 + b.toNat),
    applyWrites_cons (r := packedNumber 2 0 a.toNat b.toNat)]
  · rfl
  all_goals try simp only [writeB, writeC, writeTag, zextByte_toNat, Config.bPos, Config.cPos, Config.tagPos, Config.tagWidth,
      Config.fieldWidth, SupportedField, writeDigits, zeroDigits, readDigits, packedNumber, BitVec.toNat_ofNat, Nat.reducePow, Nat.reduceMod, Nat.reduceSub]
  all_goals omega

/-- PACK1's writes give the byte itself (R124). -/
theorem applyWrites_pack1 (a : Byte) :
    applyWrites Config.wInit [writeC a, writeTag 0#64] = .ok (BitVec.ofNat 64 a.toNat) := by
  have ha := a.isLt
  change applyWrites (BitVec.ofNat 64 1000000000) _ = _
  rw [applyWrites_cons (r := 1000000000 + a.toNat), applyWrites_cons (r := a.toNat)]
  · rfl
  all_goals try simp only [writeC, writeTag, zextByte_toNat, Config.cPos, Config.tagPos, Config.tagWidth, Config.fieldWidth,
      SupportedField, writeDigits, zeroDigits, readDigits, BitVec.toNat_ofNat, Nat.reducePow, Nat.reduceMod, Nat.reduceSub]
  all_goals omega

/-! ### UNPACK as a function -/

theorem zextPacked_toNat (v : PackedValue) : (zextPacked v).toNat = v.toNat := by
  have := v.isLt
  simp only [zextPacked, BitVec.truncate_eq_setWidth, BitVec.toNat_setWidth]
  omega

/-- A packed value that is not negative is at most `I32_MAX`. -/
theorem toNat_of_nonnegative {v : PackedValue} (h : ¬v.toInt < 0) : v.toNat ≤ 2147483647 := by
  have := v.isLt
  rw [BitVec.toInt_eq_toNat_cond] at h
  split at h <;> omega

/-- A field read of a packed value by UNPACK. -/
theorem readField_packed (v : PackedValue) {p w : FieldIndex} (h : SupportedField p w) :
    readField (zextPacked v) p w = .ok (BitVec.ofNat 64 (readDigits v.toNat p.toNat w.toNat)) := by
  rw [readField, if_pos ((inFieldDomain_iff p w).2 h), zextPacked_toNat]

/-- What the decoder reads as the tag is the mode tag (R61). -/
theorem readField_tag (v : PackedValue) :
    readField (zextPacked v) Config.tagPos Config.tagWidth = .ok (BitVec.ofNat 64 (modeTag v)) :=
  readField_packed v (by decide)

theorem fieldsToBytes_eq (fs : List WorkingValue) :
    fieldsToBytes fs = if ∀ f ∈ fs, f.toNat ≤ 255 then .ok (fs.map castToByte) else .error .invalidPackedValue := by
  simp only [fieldsToBytes, List.all_eq_true, fitsByte, Config.byteMax, decide_eq_true_eq]

theorem castToByte_ofNat (n : Nat) : castToByte (BitVec.ofNat 64 n) = BitVec.ofNat 8 n := by
  apply BitVec.eq_of_toNat_eq
  simp only [castToByte, BitVec.truncate_eq_setWidth, BitVec.toNat_setWidth, BitVec.toNat_ofNat]
  omega

/-- UNPACK of a value that is not negative, its field reads done. -/
theorem unpack_of_nonnegative {v : PackedValue} (hn : ¬v.toInt < 0) :
    unpack v =
      if BitVec.ofNat 64 (readDigits v.toNat 10 1) = 1#64 then
        fieldsToBytes [BitVec.ofNat 64 (readDigits v.toNat 9 3), BitVec.ofNat 64 (readDigits v.toNat 6 3),
          BitVec.ofNat 64 (readDigits v.toNat 3 3)]
      else if BitVec.ofNat 64 (readDigits v.toNat 10 1) = 2#64 then
        fieldsToBytes [BitVec.ofNat 64 (readDigits v.toNat 6 3), BitVec.ofNat 64 (readDigits v.toNat 3 3)]
      else if BitVec.ofNat 64 (readDigits v.toNat 10 1) = 0#64 ∨ v.toNat ≤ 255 then
        fieldsToBytes [BitVec.ofNat 64 (readDigits v.toNat 3 3)]
      else .error .invalidPackedValue := by
  rw [unpack, isNegative, if_neg (by simpa using hn)]
  dsimp only
  rw [readField_packed v (p := Config.tagPos) (w := Config.tagWidth) (by decide),
    readField_packed v (p := Config.aPos) (w := Config.fieldWidth) (by decide),
    readField_packed v (p := Config.bPos) (w := Config.fieldWidth) (by decide),
    readField_packed v (p := Config.cPos) (w := Config.fieldWidth) (by decide), zextPacked_toNat]
  rfl

/-- Everything UNPACK can do: the bytes of the value's class, or the one fault. -/
theorem unpack_eq_bytesOf (v : PackedValue) :
    unpack v = match bytesOf v with | some bs => .ok bs | none => .error .invalidPackedValue := by
  by_cases hn : v.toInt < 0
  · simp [unpack, isNegative, hn, bytesOf, decodePackedValue, yields]
  have hu := toNat_of_nonnegative hn
  rw [unpack_of_nonnegative hn, bytesOf, decodePackedValue, if_neg hn]
  rw [dec_eq_readDigits (hi := 10) (by decide), dec_eq_readDigits (hi := 9) (by decide),
    dec_eq_readDigits (hi := 6) (by decide), dec_eq_readDigits (hi := 3) (by decide)]
  have h1 : readDigits v.toNat 10 1 ≤ 2 := by simp only [readDigits]; omega
  have ha := readDigits_lt v.toNat 9 3
  have hb := readDigits_lt v.toNat 6 3
  have hc := readDigits_lt v.toNat 3 3
  revert h1 ha hb hc
  generalize readDigits v.toNat 10 1 = t
  generalize readDigits v.toNat 9 3 = a
  generalize readDigits v.toNat 6 3 = b
  generalize readDigits v.toNat 3 3 = c
  intro h1 ha hb hc
  have la : (BitVec.ofNat 64 a).toNat = a := by simp only [BitVec.toNat_ofNat]; omega
  have lb : (BitVec.ofNat 64 b).toNat = b := by simp only [BitVec.toNat_ofNat]; omega
  have lc : (BitVec.ofNat 64 c).toNat = c := by simp only [BitVec.toNat_ofNat]; omega
  have ht : t = 0 ∨ t = 1 ∨ t = 2 := by omega
  rcases ht with rfl | rfl | rfl <;> simp only [fieldsToBytes_eq, classify]
  · by_cases h : c ≤ 255 <;> simp [h, lc, yields, castToByte_ofNat]
  · by_cases h : a ≤ 255 <;> by_cases h' : b ≤ 255 <;> by_cases h'' : c ≤ 255 <;>
      simp [h, h', h'', la, lb, lc, yields, castToByte_ofNat]
  · by_cases h' : b ≤ 255 <;> by_cases h'' : c ≤ 255 <;> simp [h', h'', lb, lc, yields, castToByte_ofNat]

end Sys2Proof.Machine
end

