-- ==== Sys2Proof/Laws/Encoding.lean ====
section
/-! SUPPORT. The select codes of the opcode table (30_encoding.md R73, R74) and small facts of the decoder and the
encoder. -/

namespace Sys2Proof

/-- A row of format `REQ`: it applies when `(op & mask) == match` (R74). -/
structure SelectRow where
  mnemonic : String
  value    : OpCode
  mask     : OpCode
  deriving DecidableEq, Repr

/-- The `REQ` rows of spec/opcode_table.json. -/
def selectRows : List SelectRow :=
  [⟨"READ_FIELD", 0x0#3, 0x7#3⟩, ⟨"ZERO_FIELD", 0x1#3, 0x7#3⟩, ⟨"WRITE_FIELD", 0x2#3, 0x7#3⟩,
    ⟨"EXCEEDS_I32", 0x3#3, 0x7#3⟩, ⟨"ENCODE", 0x4#3, 0x7#3⟩, ⟨"DECODE", 0x5#3, 0x7#3⟩, ⟨"RESERVED", 0x6#3, 0x6#3⟩]

def SelectRow.applies (row : SelectRow) (op : OpCode) : Bool := op &&& row.mask == row.value

/-- The mnemonic of the row a decoded request belongs to. -/
def requestMnemonic : Instr → String
  | .readField .. => "READ_FIELD"
  | .zeroField .. => "ZERO_FIELD"
  | .writeField .. => "WRITE_FIELD"
  | .exceedsI32 .. => "EXCEEDS_I32"
  | .encodeBytes .. => "ENCODE"
  | .decodeValues .. => "DECODE"
  | .reserved .. => "RESERVED"
  | .pack3 .. | .pack1 .. | .pack2 .. | .unpack .. | .pv3 .. | .pv2 .. | .pv1 .. | .pvFieldTooLarge .. | .pvNegative .. => ""

/-- Every code belongs to exactly one row: no two rows overlap and none is left over. -/
theorem one_row_applies : ∀ op : OpCode, (selectRows.filter (fun row => row.applies op)).length = 1 := by decide

/-- The decoder reads the row that applies. -/
theorem decodeRequest_row :
    ∀ op : OpCode, (selectRows.filter (fun row => row.applies op)).map (fun row => row.mnemonic) =
      [requestMnemonic (decodeRequest { op := op })] := by decide

/-! ### The decoder, code by code -/

theorem decodeRequest_format (r : Request) : (decodeRequest r).format = .req := by
  unfold decodeRequest
  split <;> rfl

theorem decodeGroup_length {g : List Byte} {i : Instr} (h : decodeGroup g = .ok i) : 1 ≤ g.length ∧ g.length ≤ 3 := by
  unfold decodeGroup at h
  split at h <;> first | (cases h; done) | simp

theorem decodeGroup_refuses (g : List Byte) (h : g.length = 0 ∨ 3 < g.length) :
    decodeGroup g = .error (.noGroupOf g.length) := by
  match g with
  | [] => rfl
  | [_] | [_, _] | [_, _, _] => simp at h
  | _ :: _ :: _ :: _ :: _ => rfl

theorem decodePackedValue_format (v : PackedValue) : (decodePackedValue v).format = .pv := by
  unfold decodePackedValue classify
  repeat' split
  all_goals rfl

/-- The digits of a number below 10^10 put back together give the number (R60). -/
theorem packedNumber_dec {v : Nat} (h : v < 10 ^ 10) :
    packedNumber (Machine.dec 10 10 v) (Machine.dec 9 7 v) (Machine.dec 6 4 v) (Machine.dec 3 1 v) = v := by
  simp only [packedNumber, Machine.dec]
  omega

end Sys2Proof
end

