-- ==== Sys2Proof/Laws/State.lean ====
section
/-! SUPPORT. What each shared update of the state does to each field, so that no later proof unfolds a record
update. -/

namespace Sys2Proof.Machine

/-! `toIdle` -/

@[simp] theorem toIdle_w (s : State) : (toIdle s).w = s.w := rfl
@[simp] theorem toIdle_activity (s : State) : (toIdle s).activity = .idle := rfl
@[simp] theorem toIdle_pc (s : State) : (toIdle s).pc = 0 := rfl
@[simp] theorem toIdle_oc (s : State) : (toIdle s).oc = 0 := rfl
@[simp] theorem toIdle_mem (s : State) : (toIdle s).mem = Memory.empty := rfl
@[simp] theorem toIdle_requests (s : State) : (toIdle s).requests = s.requests := rfl
@[simp] theorem toIdle_responses (s : State) : (toIdle s).responses = s.responses := rfl
@[simp] theorem toIdle_freeDraws (s : State) : (toIdle s).freeDraws = s.freeDraws := rfl

/-! `respond` -/

@[simp] theorem respond_w (r : Response) (s : State) : (respond r s).w = s.w := rfl
@[simp] theorem respond_activity (r : Response) (s : State) : (respond r s).activity = .idle := rfl
@[simp] theorem respond_pc (r : Response) (s : State) : (respond r s).pc = 0 := rfl
@[simp] theorem respond_oc (r : Response) (s : State) : (respond r s).oc = 0 := rfl
@[simp] theorem respond_mem (r : Response) (s : State) : (respond r s).mem = Memory.empty := rfl
@[simp] theorem respond_requests (r : Response) (s : State) : (respond r s).requests = s.requests.tail := rfl
@[simp] theorem respond_responses (r : Response) (s : State) : (respond r s).responses = s.responses ++ [r] := rfl
@[simp] theorem respond_freeDraws (r : Response) (s : State) : (respond r s).freeDraws = s.freeDraws := rfl

/-! `succeed` -/

@[simp] theorem succeed_w (res : Result) (s : State) : (succeed res s).w = s.w := rfl
@[simp] theorem succeed_activity (res : Result) (s : State) : (succeed res s).activity = .idle := rfl
@[simp] theorem succeed_pc (res : Result) (s : State) : (succeed res s).pc = 0 := rfl
@[simp] theorem succeed_oc (res : Result) (s : State) : (succeed res s).oc = 0 := rfl
@[simp] theorem succeed_mem (res : Result) (s : State) : (succeed res s).mem = Memory.empty := rfl
@[simp] theorem succeed_requests (res : Result) (s : State) : (succeed res s).requests = s.requests.tail := rfl
@[simp] theorem succeed_responses (res : Result) (s : State) : (succeed res s).responses = s.responses ++ [{ status := .ok, result := some res }] := rfl
@[simp] theorem succeed_freeDraws (res : Result) (s : State) : (succeed res s).freeDraws = s.freeDraws := rfl

/-! `raise` -/

@[simp] theorem raise_w (st : Status) (s : State) : (raise st s).w = s.w := rfl
@[simp] theorem raise_activity (st : Status) (s : State) : (raise st s).activity = .idle := rfl
@[simp] theorem raise_pc (st : Status) (s : State) : (raise st s).pc = 0 := rfl
@[simp] theorem raise_oc (st : Status) (s : State) : (raise st s).oc = 0 := rfl
@[simp] theorem raise_mem (st : Status) (s : State) : (raise st s).mem = Memory.empty := rfl
@[simp] theorem raise_requests (st : Status) (s : State) : (raise st s).requests = s.requests.tail := rfl
@[simp] theorem raise_responses (st : Status) (s : State) : (raise st s).responses = s.responses ++ [{ status := st, result := none }] := rfl
@[simp] theorem raise_freeDraws (st : Status) (s : State) : (raise st s).freeDraws = s.freeDraws := rfl

/-! `emitValue` -/

@[simp] theorem emitValue_w (v : PackedValue) (s : State) : (emitValue v s).w = s.w := rfl
@[simp] theorem emitValue_activity (v : PackedValue) (s : State) : (emitValue v s).activity = s.activity := rfl
@[simp] theorem emitValue_pc (v : PackedValue) (s : State) : (emitValue v s).pc = s.pc := rfl
@[simp] theorem emitValue_oc (v : PackedValue) (s : State) : (emitValue v s).oc = s.oc + 1 := rfl
@[simp] theorem emitValue_mem (v : PackedValue) (s : State) : (emitValue v s).mem = { s.mem with outValues := s.mem.outValues ++ [v] } := rfl
@[simp] theorem emitValue_requests (v : PackedValue) (s : State) : (emitValue v s).requests = s.requests := rfl
@[simp] theorem emitValue_responses (v : PackedValue) (s : State) : (emitValue v s).responses = s.responses := rfl
@[simp] theorem emitValue_freeDraws (v : PackedValue) (s : State) : (emitValue v s).freeDraws = s.freeDraws := rfl

/-! `emitByte` -/

@[simp] theorem emitByte_w (x : Byte) (s : State) : (emitByte x s).w = s.w := rfl
@[simp] theorem emitByte_activity (x : Byte) (s : State) : (emitByte x s).activity = s.activity := rfl
@[simp] theorem emitByte_pc (x : Byte) (s : State) : (emitByte x s).pc = s.pc := rfl
@[simp] theorem emitByte_oc (x : Byte) (s : State) : (emitByte x s).oc = s.oc + 1 := rfl
@[simp] theorem emitByte_mem (x : Byte) (s : State) : (emitByte x s).mem = { s.mem with outBytes := s.mem.outBytes ++ [x] } := rfl
@[simp] theorem emitByte_requests (x : Byte) (s : State) : (emitByte x s).requests = s.requests := rfl
@[simp] theorem emitByte_responses (x : Byte) (s : State) : (emitByte x s).responses = s.responses := rfl
@[simp] theorem emitByte_freeDraws (x : Byte) (s : State) : (emitByte x s).freeDraws = s.freeDraws := rfl

/-! `advance` -/

@[simp] theorem advance_w (n : Nat) (s : State) : (advance n s).w = s.w := rfl
@[simp] theorem advance_activity (n : Nat) (s : State) : (advance n s).activity = s.activity := rfl
@[simp] theorem advance_pc (n : Nat) (s : State) : (advance n s).pc = s.pc + n := rfl
@[simp] theorem advance_oc (n : Nat) (s : State) : (advance n s).oc = s.oc := rfl
@[simp] theorem advance_mem (n : Nat) (s : State) : (advance n s).mem = s.mem := rfl
@[simp] theorem advance_requests (n : Nat) (s : State) : (advance n s).requests = s.requests := rfl
@[simp] theorem advance_responses (n : Nat) (s : State) : (advance n s).responses = s.responses := rfl
@[simp] theorem advance_freeDraws (n : Nat) (s : State) : (advance n s).freeDraws = s.freeDraws := rfl

/-! `beginEncode` -/

@[simp] theorem beginEncode_w (bytes : List Byte) (s : State) : (beginEncode bytes s).w = s.w := rfl
@[simp] theorem beginEncode_activity (bytes : List Byte) (s : State) : (beginEncode bytes s).activity = .encoding := rfl
@[simp] theorem beginEncode_pc (bytes : List Byte) (s : State) : (beginEncode bytes s).pc = 0 := rfl
@[simp] theorem beginEncode_oc (bytes : List Byte) (s : State) : (beginEncode bytes s).oc = 0 := rfl
@[simp] theorem beginEncode_mem (bytes : List Byte) (s : State) : (beginEncode bytes s).mem = { Memory.empty with inBytes := bytes } := rfl
@[simp] theorem beginEncode_requests (bytes : List Byte) (s : State) : (beginEncode bytes s).requests = s.requests := rfl
@[simp] theorem beginEncode_responses (bytes : List Byte) (s : State) : (beginEncode bytes s).responses = s.responses := rfl
@[simp] theorem beginEncode_freeDraws (bytes : List Byte) (s : State) : (beginEncode bytes s).freeDraws = s.freeDraws := rfl

/-! `beginDecode` -/

@[simp] theorem beginDecode_w (values : List PackedValue) (s : State) : (beginDecode values s).w = s.w := rfl
@[simp] theorem beginDecode_activity (values : List PackedValue) (s : State) : (beginDecode values s).activity = .decoding := rfl
@[simp] theorem beginDecode_pc (values : List PackedValue) (s : State) : (beginDecode values s).pc = 0 := rfl
@[simp] theorem beginDecode_oc (values : List PackedValue) (s : State) : (beginDecode values s).oc = 0 := rfl
@[simp] theorem beginDecode_mem (values : List PackedValue) (s : State) : (beginDecode values s).mem = { Memory.empty with inValues := values } := rfl
@[simp] theorem beginDecode_requests (values : List PackedValue) (s : State) : (beginDecode values s).requests = s.requests := rfl
@[simp] theorem beginDecode_responses (values : List PackedValue) (s : State) : (beginDecode values s).responses = s.responses := rfl
@[simp] theorem beginDecode_freeDraws (values : List PackedValue) (s : State) : (beginDecode values s).freeDraws = s.freeDraws := rfl

/-! `endEncode` -/

@[simp] theorem endEncode_w (s : State) : (endEncode s).w = s.w := rfl
@[simp] theorem endEncode_activity (s : State) : (endEncode s).activity = .idle := rfl
@[simp] theorem endEncode_pc (s : State) : (endEncode s).pc = 0 := rfl
@[simp] theorem endEncode_oc (s : State) : (endEncode s).oc = 0 := rfl
@[simp] theorem endEncode_mem (s : State) : (endEncode s).mem = Memory.empty := rfl
@[simp] theorem endEncode_requests (s : State) : (endEncode s).requests = s.requests.tail := rfl
@[simp] theorem endEncode_responses (s : State) : (endEncode s).responses = s.responses ++ [{ status := .ok, result := some (.packedValues s.mem.outValues) }] := rfl
@[simp] theorem endEncode_freeDraws (s : State) : (endEncode s).freeDraws = s.freeDraws := rfl

/-! `endDecode` -/

@[simp] theorem endDecode_w (s : State) : (endDecode s).w = s.w := rfl
@[simp] theorem endDecode_activity (s : State) : (endDecode s).activity = .idle := rfl
@[simp] theorem endDecode_pc (s : State) : (endDecode s).pc = 0 := rfl
@[simp] theorem endDecode_oc (s : State) : (endDecode s).oc = 0 := rfl
@[simp] theorem endDecode_mem (s : State) : (endDecode s).mem = Memory.empty := rfl
@[simp] theorem endDecode_requests (s : State) : (endDecode s).requests = s.requests.tail := rfl
@[simp] theorem endDecode_responses (s : State) : (endDecode s).responses = s.responses ++ [{ status := .ok, result := some (.bytes s.mem.outBytes) }] := rfl
@[simp] theorem endDecode_freeDraws (s : State) : (endDecode s).freeDraws = s.freeDraws := rfl

/-! `forgetW` -/

@[simp] theorem forgetW_w (s : State) : (forgetW s).w = Config.unspecifiedW s.freeDraws := rfl
@[simp] theorem forgetW_activity (s : State) : (forgetW s).activity = s.activity := rfl
@[simp] theorem forgetW_pc (s : State) : (forgetW s).pc = s.pc := rfl
@[simp] theorem forgetW_oc (s : State) : (forgetW s).oc = s.oc := rfl
@[simp] theorem forgetW_mem (s : State) : (forgetW s).mem = s.mem := rfl
@[simp] theorem forgetW_requests (s : State) : (forgetW s).requests = s.requests := rfl
@[simp] theorem forgetW_responses (s : State) : (forgetW s).responses = s.responses := rfl
@[simp] theorem forgetW_freeDraws (s : State) : (forgetW s).freeDraws = s.freeDraws + 1 := rfl

/-! `externalReset` -/

@[simp] theorem externalReset_w (s : State) : (externalReset s).w = Config.unspecifiedW s.freeDraws := rfl
@[simp] theorem externalReset_activity (s : State) : (externalReset s).activity = .idle := rfl
@[simp] theorem externalReset_pc (s : State) : (externalReset s).pc = 0 := rfl
@[simp] theorem externalReset_oc (s : State) : (externalReset s).oc = 0 := rfl
@[simp] theorem externalReset_mem (s : State) : (externalReset s).mem = Memory.empty := rfl
@[simp] theorem externalReset_requests (s : State) : (externalReset s).requests = if s.activity = .idle then s.requests else s.requests.tail := rfl
@[simp] theorem externalReset_responses (s : State) : (externalReset s).responses = s.responses := rfl
@[simp] theorem externalReset_freeDraws (s : State) : (externalReset s).freeDraws = s.freeDraws + 1 := rfl

/-! `emitBytes`: the bytes appended in order, the output cursor moved by their number -/

@[simp] theorem emitBytes_eq (bs : List Byte) (s : State) :
    emitBytes bs s =
      { s with mem := { s.mem with outBytes := s.mem.outBytes ++ bs }, oc := s.oc + bs.length } := by
  induction bs generalizing s with
  | nil => simp [emitBytes]
  | cons x rest ih => simp [emitBytes, ih, emitByte, Nat.add_assoc, Nat.add_comm 1]

/-- Everything `yieldBytes` does. -/
theorem yieldBytes_eq (bs : List Byte) (s : State) :
    yieldBytes bs s =
      { s with pc := s.pc + 1, oc := s.oc + bs.length,
               mem := { s.mem with outBytes := s.mem.outBytes ++ bs } } := by
  simp [yieldBytes, advance]

/-! `settle` -/

theorem settle_inside_encode {s : State} (h : s.activity = .encoding) (t : State) : settle s t = forgetW t := by
  simp [settle, h]

theorem settle_outside_encode {s : State} (h : s.activity ≠ .encoding) (t : State) : settle s t = t := by
  simp [settle, h]

end Sys2Proof.Machine
end

