-- ==== Sys2Proof/Laws/Memory.lean ====
section
/-! SUPPORT. Reading and writing the sequence spaces (20_memory.md R42, R43), and that every operation over them keeps
`Memory.wf` (R41). -/

namespace Sys2Proof.Machine

/-- `MemRead` answers exactly the elements below the length. -/
theorem memReadByte_isSome (s : State) (i : Nat) : (memReadByte s i).isSome = true ↔ i < s.mem.inBytes.length := by
  simp [memReadByte]

theorem memReadValue_isSome (s : State) (i : Nat) :
    (memReadValue s i).isSome = true ↔ i < s.mem.inValues.length := by
  simp [memReadValue]

/-- Reading `n` bytes that exist gives the `n` bytes in index order. -/
theorem memReadBytes_eq (s : State) (n : Nat) (i : Nat) (h : i + n ≤ s.mem.inBytes.length) :
    memReadBytes s i n = some ((s.mem.inBytes.drop i).take n) := by
  induction n generalizing i with
  | zero => simp [memReadBytes]
  | succ n ih =>
    have hi : i < s.mem.inBytes.length := by omega
    have h2 : List.take (n + 1) (List.drop i s.mem.inBytes) =
        s.mem.inBytes[i] :: List.take n (List.drop (i + 1) s.mem.inBytes) := by
      rw [List.drop_eq_getElem_cons hi, List.take_succ_cons]
    simp [memReadBytes, memReadByte, ih (i + 1) (by omega), List.getElem?_eq_getElem hi, h2]

/-- The element written last is read back at the index it was written to, and every earlier element is unchanged. -/
theorem emitValue_reads (v : PackedValue) (s : State) :
    (emitValue v s).mem.outValues[s.mem.outValues.length]? = some v ∧
      ∀ i, i < s.mem.outValues.length → (emitValue v s).mem.outValues[i]? = s.mem.outValues[i]? := by
  refine ⟨by simp, fun i hi => ?_⟩
  simp [List.getElem?_append_left hi]

theorem emitByte_reads (x : Byte) (s : State) :
    (emitByte x s).mem.outBytes[s.mem.outBytes.length]? = some x ∧
      ∀ i, i < s.mem.outBytes.length → (emitByte x s).mem.outBytes[i]? = s.mem.outBytes[i]? := by
  refine ⟨by simp, fun i hi => ?_⟩
  simp [List.getElem?_append_left hi]

/-! ### Every operation keeps the form of the spaces -/

theorem Memory.wf_empty : Memory.empty.wf = true := by decide

theorem State.reset_mem_wf : State.reset.mem.wf = true := by decide

theorem toIdle_mem_wf (s : State) : (toIdle s).mem.wf = true := Memory.wf_empty

theorem respond_mem_wf (r : Response) (s : State) : (respond r s).mem.wf = true := Memory.wf_empty

theorem emitValue_mem_wf (v : PackedValue) (s : State) (h : s.mem.wf = true) : (emitValue v s).mem.wf = true := h

theorem emitByte_mem_wf (x : Byte) (s : State) (h : s.mem.wf = true) : (emitByte x s).mem.wf = true := h

theorem emitBytes_mem_wf (bs : List Byte) (s : State) (h : s.mem.wf = true) : (emitBytes bs s).mem.wf = true := by
  rw [emitBytes_eq]; exact h

theorem advance_mem_wf (n : Nat) (s : State) (h : s.mem.wf = true) : (advance n s).mem.wf = true := h

theorem forgetW_mem_wf (s : State) (h : s.mem.wf = true) : (forgetW s).mem.wf = true := h

theorem yieldBytes_mem_wf (bs : List Byte) (s : State) (h : s.mem.wf = true) : (yieldBytes bs s).mem.wf = true :=
  advance_mem_wf 1 _ (emitBytes_mem_wf bs s h)

theorem beginEncode_mem_wf (bytes : List Byte) (s : State) (h : (Instr.encodeBytes bytes).wellFormed = true) :
    (beginEncode bytes s).mem.wf = true := by
  simp only [Instr.wellFormed] at h
  simp only [beginEncode_mem, Memory.wf, Memory.empty, h]
  decide

theorem beginDecode_mem_wf (values : List PackedValue) (s : State)
    (h : (Instr.decodeValues values).wellFormed = true) : (beginDecode values s).mem.wf = true := by
  simp only [Instr.wellFormed] at h
  simp only [beginDecode_mem, Memory.wf, Memory.empty, h]
  decide

theorem packGroup_mem_wf (writes : List FieldWrite) (n : Nat) (s : State) (h : s.mem.wf = true) :
    (packGroup writes n s).mem.wf = true := by
  unfold packGroup
  split
  · exact h
  · exact Memory.wf_empty

end Sys2Proof.Machine
end

