-- ==== Sys2Proof/Laws/PerInstr.lean ====
section
/-! SUPPORT. Facts about every instruction as syntax, one lemma per constructor. -/

namespace Sys2Proof.Laws.EncodingFormat

/-- An instruction is written in the encoding of its row's format (30_encoding.md R74). -/
def Statement (i : Instr) : Prop := (encode i).format = i.format

theorem readField (v : WorkingValue) (p w : FieldIndex) : Statement (.readField v p w) := rfl
theorem zeroField (v : WorkingValue) (p w : FieldIndex) : Statement (.zeroField v p w) := rfl
theorem writeField (v x : WorkingValue) (p w : FieldIndex) : Statement (.writeField v x p w) := rfl
theorem exceedsI32 (n : WorkingValue) : Statement (.exceedsI32 n) := rfl
theorem encodeBytes (bs : List Byte) : Statement (.encodeBytes bs) := rfl
theorem decodeValues (vs : List PackedValue) : Statement (.decodeValues vs) := rfl
theorem reserved (low : BitVec 1) : Statement (.reserved low) := rfl
theorem pack3 (a b c : Byte) : Statement (.pack3 a b c) := rfl
theorem pack1 (a : Byte) : Statement (.pack1 a) := rfl
theorem pack2 (a b : Byte) : Statement (.pack2 a b) := rfl
theorem unpack (v : PackedValue) : Statement (.unpack v) := rfl
theorem pv3 (a b c : Byte) : Statement (.pv3 a b c) := rfl
theorem pv2 (a : Nat) (b c : Byte) : Statement (.pv2 a b c) := rfl
theorem pv1 (a b : Nat) (c : Byte) : Statement (.pv1 a b c) := rfl
theorem pvFieldTooLarge (t a b c : Nat) : Statement (.pvFieldTooLarge t a b c) := rfl
theorem pvNegative (v : PackedValue) : Statement (.pvNegative v) := rfl

end Sys2Proof.Laws.EncodingFormat
end

