-- ==== Sys2Proof/Laws/Select.lean ====
section
/-! SUPPORT. What the block selects next, once for each activity, and that every meaning answers a next state. -/

namespace Sys2Proof.Machine

/-! ### Inside ENCODE -/

theorem selectEncode_at_end {s : State} (h : s.mem.inBytes.length ≤ s.pc) : selectEncode s = .finish := by
  simp [selectEncode, bytesLeft, Nat.sub_eq_zero_of_le h]

/-- The elements left decide the group step. -/
theorem selectEncode_of_left {s : State} {l : List Byte} (hl : s.mem.inBytes.drop s.pc = l) (hne : l ≠ []) {i : Instr}
    (hi : decodeGroup (l.take 3) = .ok i) : selectEncode s = .run i := by
  have hlen : l.length = s.mem.inBytes.length - s.pc := by rw [← hl, List.length_drop]
  have hpos : 0 < l.length := List.length_pos_iff.mpr hne
  have hb : bytesLeft s = l.length := by rw [hlen]; rfl
  have hread : memReadBytes s s.pc (min Config.group (bytesLeft s)) = some (l.take 3) := by
    rw [memReadBytes_eq s _ _ (by rw [hb, hlen]; omega), hl, hb]
    congr 1
    rw [Nat.min_comm, List.take_eq_take_iff]
    simp only [Config.group]
    omega
  simp [selectEncode, show bytesLeft s ≠ 0 by omega, hread, decode, hi]

theorem selectEncode_three {s : State} {a b c : Byte} {rest : List Byte}
    (h : s.mem.inBytes.drop s.pc = a :: b :: c :: rest) : selectEncode s = .run (.pack3 a b c) :=
  selectEncode_of_left h (by simp) (by simp [decodeGroup])

theorem selectEncode_two {s : State} {a b : Byte} (h : s.mem.inBytes.drop s.pc = [a, b]) :
    selectEncode s = .run (.pack2 a b) :=
  selectEncode_of_left h (by simp) (by simp [decodeGroup])

theorem selectEncode_one {s : State} {a : Byte} (h : s.mem.inBytes.drop s.pc = [a]) :
    selectEncode s = .run (.pack1 a) :=
  selectEncode_of_left h (by simp) (by simp [decodeGroup])

/-- Everything `selectEncode` can answer. -/
theorem selectEncode_cases (s : State) :
    (s.mem.inBytes.length ≤ s.pc ∧ selectEncode s = .finish) ∨
    (∃ a b c rest, s.mem.inBytes.drop s.pc = a :: b :: c :: rest ∧ selectEncode s = .run (.pack3 a b c)) ∨
    (∃ a b, s.mem.inBytes.drop s.pc = [a, b] ∧ selectEncode s = .run (.pack2 a b)) ∨
    (∃ a, s.mem.inBytes.drop s.pc = [a] ∧ selectEncode s = .run (.pack1 a)) := by
  match h : s.mem.inBytes.drop s.pc with
  | [] =>
    have h' : s.mem.inBytes.length ≤ s.pc := List.drop_eq_nil_iff.mp h
    exact .inl ⟨h', selectEncode_at_end h'⟩
  | [a] => exact .inr (.inr (.inr ⟨a, rfl, selectEncode_one h⟩))
  | [a, b] => exact .inr (.inr (.inl ⟨a, b, rfl, selectEncode_two h⟩))
  | a :: b :: c :: rest => exact .inr (.inl ⟨a, b, c, rest, rfl, selectEncode_three h⟩)

/-! ### Inside DECODE -/

theorem selectDecode_at_end {s : State} (h : s.mem.inValues.length ≤ s.pc) : selectDecode s = .finish := by
  simp [selectDecode, Nat.not_lt.mpr h]

theorem selectDecode_of_element {s : State} {v : PackedValue} (h : s.mem.inValues[s.pc]? = some v) :
    selectDecode s = .run (.unpack v) := by
  have hlt : s.pc < s.mem.inValues.length := by
    rcases List.getElem?_eq_some_iff.mp h with ⟨hlt, _⟩
    exact hlt
  simp only [selectDecode, if_pos hlt, memReadValue, h, decode]

/-- Everything `selectDecode` can answer. -/
theorem selectDecode_cases (s : State) :
    (s.mem.inValues.length ≤ s.pc ∧ selectDecode s = .finish) ∨
    (∃ v, s.mem.inValues[s.pc]? = some v ∧ selectDecode s = .run (.unpack v)) := by
  by_cases h : s.pc < s.mem.inValues.length
  · have he : s.mem.inValues[s.pc]? = some s.mem.inValues[s.pc] := List.getElem?_eq_getElem h
    exact .inr ⟨_, he, selectDecode_of_element he⟩
  · exact .inl ⟨Nat.not_lt.mp h, selectDecode_at_end (Nat.not_lt.mp h)⟩

/-! ### Idle -/

theorem selectRequest_wait {s : State} (h : s.requests = []) : selectRequest s = .wait := by
  simp [selectRequest, h]

theorem selectRequest_take {s : State} {r : Request} {rest : List Request} (h : s.requests = r :: rest) :
    selectRequest s = .run (decodeRequest r) := by
  simp [selectRequest, h, decode]

/-! ### A step, by what is selected -/

theorem step_run {s t : State} {i : Instr} (h : select s = .run i) (he : exec i s = .next t) :
    step s = .next (settle s t) := by
  simp [step, h, he]

theorem step_finish {s : State} (h : select s = .finish) : step s = .next (finish s) := by
  simp [step, h]

theorem step_wait {s : State} (h : select s = .wait) : step s = .next s := by
  simp [step, h]

/-! ### Runs -/

theorem run_succ {s t : State} {k : Nat} (h : step s = .next t) : run (k + 1) s = run k t := by
  simp [run, h]

theorem run_add {s t : State} {j : Nat} (k : Nat) (h : run j s = .next t) : run (j + k) s = run k t := by
  induction j generalizing s with
  | zero =>
    simp only [run, Host.Outcome.next.injEq] at h
    rw [h, Nat.zero_add]
  | succ j ih =>
    simp only [run] at h
    cases hs : step s with
    | next u =>
      rw [hs] at h
      rw [Nat.add_right_comm, run_succ hs]
      exact ih h
    | fault f => rw [hs] at h; cases h
    | refused r => rw [hs] at h; cases h

/-- `run` is the host's run of this machine. -/
theorem run_eq_core_run (k : Nat) (s : State) : run k s = Host.Core.run Sys2Proof.core k s := by
  induction k generalizing s with
  | zero => rfl
  | succ k ih =>
    simp only [run, Host.Core.run, Sys2Proof.core]
    cases step s with
    | next t => exact ih t
    | fault f => rfl
    | refused r => rfl

end Sys2Proof.Machine
end

