-- ==== Sys2Proof/Tests/Slice0.lean ====
section
/-! SUPPORT. Tests: the well-formedness checks, decoding of words written out from spec/30_encoding.md, vectors of
spec/95_test_vectors.md, and for every obligation with hypotheses a state and operands that meet them
(`witness_<Obligation>`). -/

namespace Sys2Proof.Tests

open Sys2Proof Sys2Proof.Machine

/-! ### Well-formedness: an ill-formed term for each check -/

/-- A sequence of 2^64 elements has no `Length` (20_memory.md R41). -/
theorem test_wf_sequence_length :
    (Instr.encodeBytes (List.replicate (2 ^ 64) 0#8)).wellFormed = false ∧
      (Instr.decodeValues (List.replicate (2 ^ 64) 0#32)).wellFormed = false ∧
      (Instr.encodeBytes (List.replicate (2 ^ 64 - 1) 0#8)).wellFormed = true := by
  simp only [Instr.wellFormed, isLength, List.length_replicate]; decide

theorem test_wf_request_length :
    Request.wellFormed { op := 4#3, bytes := List.replicate (2 ^ 64) 0#8 } = false ∧
      Request.wellFormed { op := 4#3, values := List.replicate (2 ^ 64) 0#32 } = false := by
  simp only [Request.wellFormed, isLength, List.length_replicate]; decide

/-- 30_encoding.md R60, R148: a digit group is at most 999, and the A of a tag-2 value at most 147. -/
theorem test_wf_digit_groups :
    (Instr.pv2 148 0#8 0#8).wellFormed = false ∧ (Instr.pv1 1000 0 0#8).wellFormed = false ∧
      (Instr.pv1 0 1000 0#8).wellFormed = false ∧ (Instr.pvFieldTooLarge 0 1000 0 256).wellFormed = false ∧
      (Instr.pvFieldTooLarge 0 0 1000 256).wellFormed = false ∧
      (Instr.pvFieldTooLarge 0 0 0 1000).wellFormed = false := by decide

/-- R149: the tag is at most 2, a field that the tag selects is above 255, and the number is at most `I32_MAX`. -/
theorem test_wf_field_too_large :
    (Instr.pvFieldTooLarge 3 0 0 256).wellFormed = false ∧ (Instr.pvFieldTooLarge 0 256 256 255).wellFormed = false ∧
      (Instr.pvFieldTooLarge 2 256 255 255).wellFormed = false ∧
      (Instr.pvFieldTooLarge 2 147 483 648).wellFormed = false ∧
      (Instr.pvFieldTooLarge 2 147 483 647).wellFormed = true := by decide

theorem test_wf_negative : (Instr.pvNegative 0#32).wellFormed = false ∧ (Instr.pvNegative (-1)).wellFormed = true := by
  decide

/-! ### Decoding: the code of R73, the groups of R71, the digits of R60 to R65, written out -/

theorem test_decode_requests :
    decode (.request { op := 0b000#3, value := 123#64, position := 2#5, width := 1#5 }) =
      .ok (.readField 123#64 2#5 1#5) ∧
    decode (.request { op := 0b001#3, value := 123#64, position := 2#5, width := 1#5 }) =
      .ok (.zeroField 123#64 2#5 1#5) ∧
    decode (.request { op := 0b010#3, value := 123#64, newDigits := 7#64, position := 2#5, width := 1#5 }) =
      .ok (.writeField 123#64 7#64 2#5 1#5) ∧
    decode (.request { op := 0b011#3, n := 5#64 }) = .ok (.exceedsI32 5#64) ∧
    decode (.request { op := 0b100#3, bytes := [1#8], values := [2#32] }) = .ok (.encodeBytes [1#8]) ∧
    decode (.request { op := 0b101#3, bytes := [1#8], values := [2#32] }) = .ok (.decodeValues [2#32]) ∧
    decode (.request { op := 0b110#3, value := 9#64 }) = .ok (.reserved 0#1) ∧
    decode (.request { op := 0b111#3 }) = .ok (.reserved 1#1) := by decide

theorem test_decode_groups :
    decode (.bytes [99#8, 100#8, 101#8]) = .ok (.pack3 99#8 100#8 101#8) ∧
    decode (.bytes [105#8, 106#8]) = .ok (.pack2 105#8 106#8) ∧ decode (.bytes [105#8]) = .ok (.pack1 105#8) ∧
    decode (.bytes []) = .error (.noGroupOf 0) ∧
    decode (.bytes [1#8, 2#8, 3#8, 4#8]) = .error (.noGroupOf 4) ∧
    decode (.element 105#32) = .ok (.unpack 105#32) := by decide

/-- 1AAABBBCCC, 2AAABBBCCC, 0AAABBBCCC with the fields at their largest, one above, and below zero. -/
theorem test_decode_packed_values :
    decode (.digits 1255254253#32) = .ok (.pv3 255#8 254#8 253#8) ∧
    decode (.digits 2147255254#32) = .ok (.pv2 147 255#8 254#8) ∧
    decode (.digits 999998255#32) = .ok (.pv1 999 998 255#8) ∧
    decode (.digits 1256255254#32) = .ok (.pvFieldTooLarge 1 256 255 254) ∧
    decode (.digits 2000256255#32) = .ok (.pvFieldTooLarge 2 0 256 255) ∧
    decode (.digits 999999256#32) = .ok (.pvFieldTooLarge 0 999 999 256) ∧
    decode (.digits 0x80000000#32) = .ok (.pvNegative 0x80000000#32) := by decide

theorem test_decode_table_words :
    decodeTableWord 8 0b000 = some (.readField 0#64 0#5 0#5) ∧
    decodeTableWord 8 0b101 = some (.decodeValues []) ∧ decodeTableWord 8 0b110 = some (.reserved 0#1) ∧
    decodeTableWord 8 0b1000 = none ∧ decodeTableWord 32 1001002003 = some (.pv3 1#8 2#8 3#8) ∧
    decodeTableWord 32 (2 ^ 32) = none := by decide

/-! ### One step on small states: vectors of 95_test_vectors.md -/

/-- The idle block with these requests on its port. -/
def idleWith (rs : List Request) : State := { State.reset with requests := rs }

/-- The state after a step, `s` itself where there is none. -/
def after (s : State) : State :=
  match step s with
  | .next t => t
  | _ => s

/-- Inside an ENCODE of `bs`, `k` bytes read, nothing emitted yet. -/
def inEncode (bs : List Byte) (k : Nat) : State :=
  { beginEncode bs (idleWith [encodeRequest bs]) with pc := k }

/-- Inside a DECODE of `vs`, just begun. -/
def inDecode (vs : List PackedValue) : State := beginDecode vs (idleWith [decodeRequestOf vs])

/-- Section 2. -/
theorem test_read_field :
    readField 1099100101#64 6#5 3#5 = .ok 100#64 ∧ readField 1234567890#64 5#5 2#5 = .ok 67#64 ∧
    readField 18446744073709551615#64 19#5 19#5 = .ok 8446744073709551615#64 ∧
    readField 123#64 2#5 3#5 = .error .domainError ∧ readField 123#64 20#5 1#5 = .error .domainError ∧
    (after (idleWith [{ op := 0#3, value := 1099100101#64, position := 9#5, width := 3#5 }])).responses =
      [completed (.digitGroup 99#64)] := by decide

theorem test_zero_field :
    zeroField 999#64 2#5 1#5 = .ok 909#64 ∧
    zeroField 18446744073709551615#64 19#5 19#5 = .ok 10000000000000000000#64 ∧
    zeroField 5#64 1#5 2#5 = .error .domainError ∧
    (after (idleWith [{ op := 1#3, value := 1000000105#64, position := 10#5, width := 1#5 }])).responses =
      [completed (.value 105#64)] := by decide

/-- Section 3. -/
theorem test_write_field :
    writeField 1099100101#64 7#64 6#5 3#5 = .ok 1099007101#64 ∧
    writeField 1000000000#64 256#64 3#5 3#5 = .ok 1000000256#64 ∧
    writeField 18446744073709551615#64 8446744073709551615#64 19#5 19#5 = .ok 18446744073709551615#64 ∧
    (after (idleWith [⟨2#3, 1000000105#64, 2#64, 10#5, 1#5, 0#64, [], []⟩])).responses =
      [completed (.value 2000000105#64)] := by decide

theorem test_write_field_faults :
    writeField 5#64 1000#64 2#5 3#5 = .error .domainError ∧
    writeField 5#64 1000#64 3#5 3#5 = .error .overflowError ∧
    writeField 18446744073709551615#64 8446744073709551616#64 19#5 19#5 = .error .workingOverflow ∧
    after (idleWith [{ op := 2#3, value := 5#64, newDigits := 1000#64, position := 3#5, width := 3#5 }]) =
      { State.reset with responses := [faulty .overflowError] } := by decide

/-- Section 4. -/
theorem test_exceeds_i32 :
    exceedsI32 2147483647 = false ∧ exceedsI32 2147483648 = true ∧
    (after (idleWith [{ op := 3#3, n := 4294967296#64 }])).responses = [completed (.bool true)] := by decide

/-- Section 7, program 3, request 9. -/
theorem test_reserved :
    after (idleWith [{ op := 7#3, value := 1#64, bytes := [1#8] }]) =
      { State.reset with responses := [faulty .illegalOp] } := by decide

/-- Section 5. -/
theorem test_pack3 :
    (after (inEncode [99#8, 100#8, 101#8, 102#8] 0)).mem.outValues = [1099100101#32] ∧
    (after (inEncode [99#8, 100#8, 101#8, 102#8] 0)).pc = 3 ∧
    (after (inEncode [99#8, 100#8, 101#8, 102#8] 0)).oc = 1 := by decide

theorem test_pack2 :
    (after (inEncode [1#8, 2#8, 3#8, 255#8, 1#8] 3)).mem.outValues = [2000255001#32] ∧
    (after (inEncode [1#8, 2#8, 3#8, 255#8, 1#8] 3)).pc = 5 := by decide

theorem test_pack1 :
    (after (inEncode [1#8, 2#8, 3#8, 255#8] 3)).mem.outValues = [255#32] ∧
    (after (inEncode [1#8, 2#8, 3#8, 255#8] 3)).pc = 4 := by decide

theorem test_encode_begins_and_ends :
    (after (idleWith [encodeRequest [7#8]])).activity = .encoding ∧
    (after (inEncode [] 0)) = { State.reset with responses := [completed (.packedValues [])] } := by decide

/-- The shortest input refused. -/
theorem test_encode_refuses (b : Byte) :
    exec (.encodeBytes (List.replicate 2147483648 b)) State.reset =
      .next { State.reset with responses := [faulty .rangeExceeded] } := by
  simp only [exec, execEncode, List.length_replicate]; rfl

/-- Section 6. -/
theorem test_unpack :
    unpack 2001002003#32 = .ok [2#8, 3#8] ∧ unpack 999999255#32 = .ok [255#8] ∧
    unpack 1255255255#32 = .ok [255#8, 255#8, 255#8] ∧ unpack 2147483647#32 = .error .invalidPackedValue ∧
    unpack 256#32 = .error .invalidPackedValue ∧ unpack (-1) = .error .invalidPackedValue := by decide

theorem test_decode_step :
    (after (inDecode [2001002003#32])).mem.outBytes = [2#8, 3#8] ∧ (after (inDecode [2001002003#32])).oc = 2 ∧
    after (inDecode [256#32, 5#32]) = { State.reset with responses := [faulty .invalidPackedValue] } ∧
    after (inDecode []) = { State.reset with responses := [completed (.bytes [])] } := by decide

/-- Section 7, program 1, request 1: the whole run, in output, without the free `W`. -/
theorem test_encode_source_example_S4 :
    encodeSeq [99#8, 100#8, 101#8, 102#8, 103#8, 104#8, 105#8, 106#8] =
      [1099100101#32, 1102103104#32, 2000105106#32] := by decide

/-- The packed value classes, one step each. -/
theorem test_classes :
    exec (.pv3 1#8 2#8 3#8) State.reset = exec (.unpack 1001002003#32) State.reset ∧
    exec (.pv2 147 2#8 3#8) State.reset = exec (.unpack 2147002003#32) State.reset ∧
    exec (.pv1 999 999 3#8) State.reset = exec (.unpack 999999003#32) State.reset ∧
    exec (.pvFieldTooLarge 2 0 256 0) State.reset = exec (.unpack 2000256000#32) State.reset ∧
    exec (.pvNegative (-1)) State.reset = exec (.unpack (-1)) State.reset := ⟨rfl, rfl, rfl, rfl, rfl⟩

/-- A word of the table, placed after reset, is what the next step runs. -/
theorem test_with_fetch_word :
    step (State.reset.withFetchWord 8 0b001) = exec (.zeroField 0#64 0#5 0#5) (State.reset.withFetchWord 8 0b001) ∧
    step (State.reset.withFetchWord 8 0b111) = exec (.reserved 1#1) (State.reset.withFetchWord 8 0b111) ∧
    step (State.reset.withFetchWord 32 1009010011) =
      exec (.pv3 9#8 10#8 11#8) (State.reset.withFetchWord 32 1009010011) ∧
    step (State.reset.withFetchWord 32 4294967295) =
      exec (.pvNegative 4294967295#32) (State.reset.withFetchWord 32 4294967295) := ⟨rfl, rfl, rfl, rfl⟩

/-! ### Witnesses: the digit_field_mux -/

theorem witness_ReadFieldAnswersTheDigitGroup :
    SupportedField 1#5 1#5 ∧ SupportedField 19#5 19#5 ∧ SupportedField 19#5 1#5 ∧ ¬SupportedField 20#5 1#5 ∧
      ¬SupportedField 1#5 0#5 ∧ ¬SupportedField 2#5 3#5 := by decide

theorem witness_ZeroFieldAnswersTheClearedValue :
    SupportedField 1#5 1#5 ∧ SupportedField 19#5 19#5 ∧ ¬SupportedField 20#5 20#5 ∧ ¬SupportedField 0#5 0#5 := by
  decide

theorem witness_WriteFieldAnswersTheReplacedValue :
    ¬SupportedField 20#5 1#5 ∧
    (SupportedField 3#5 3#5 ∧ 10 ^ (3#5).toNat ≤ (1000#64).toNat) ∧
    (SupportedField 3#5 3#5 ∧ (999#64).toNat < 10 ^ (3#5).toNat) ∧
    (zeroField 18446744073709551615#64 1#5 1#5 = .ok 18446744073709551610#64 ∧
      2 ^ 64 - 1 < (18446744073709551610#64).toNat + (6#64).toNat * 10 ^ ((1#5).toNat - (1#5).toNat) ∧
      (18446744073709551610#64).toNat + (5#64).toNat * 10 ^ ((1#5).toNat - (1#5).toNat) ≤ 2 ^ 64 - 1) := by
  decide

/-- With the positions next to the field on both sides, and the units position. -/
theorem witness_FieldIsolation :
    writeField 1099100101#64 7#64 6#5 3#5 = .ok 1099007101#64 ∧
    zeroField 1099100101#64 6#5 3#5 = .ok 1099000101#64 ∧
    (1 ≤ 7 ∧ (6#5).toNat < 7) ∧ (1 ≤ 3 ∧ 3 < (6#5).toNat - (3#5).toNat + 1) ∧
    (1 ≤ 1 ∧ 1 < (6#5).toNat - (3#5).toNat + 1) := by decide

theorem witness_SecondWriteReplacesTheFirst :
    writeField 1001002003#64 1#64 9#5 3#5 = .ok 1001002003#64 ∧
    zeroField 1000000000#64 9#5 3#5 = .ok 1000000000#64 := by decide

/-- Neighbouring fields, in both orders. -/
theorem witness_DisjointWritesCommute :
    ((6#5).toNat < (9#5).toNat - (3#5).toNat + 1 ∧ writeField 1000000000#64 5#64 6#5 3#5 = .ok 1000005000#64 ∧
      writeField 1000005000#64 7#64 9#5 3#5 = .ok 1007005000#64 ∧
      writeField 1000000000#64 7#64 9#5 3#5 = .ok 1007000000#64) ∧
    ((3#5).toNat < (6#5).toNat - (3#5).toNat + 1 ∧ writeField 1000000000#64 7#64 6#5 3#5 = .ok 1000007000#64 ∧
      writeField 1000007000#64 5#64 3#5 3#5 = .ok 1000007005#64 ∧
      writeField 1000000000#64 5#64 3#5 3#5 = .ok 1000000005#64) := by decide

theorem witness_ValueIsRestPlusField :
    zeroField 1099100101#64 6#5 3#5 = .ok 1099000101#64 ∧ readField 1099100101#64 6#5 3#5 = .ok 100#64 := by decide

theorem witness_WorkingOverflowNeedsTwentyDigits :
    (9999999999999999999#64).toNat < 10 ^ 19 ∧
    writeField 9999999999999999999#64 9#64 19#5 1#5 = .ok 9999999999999999999#64 := by decide

/-! ### Witnesses: transactions -/

/-- A request that `k` steps answer from every idle block is answered. -/
theorem answers_of_run {r : Request} {resp : Response} (k : Nat)
    (h : ∀ (w : WorkingValue) (rest : List Request) (resps : List Response) (fd : Nat), ∃ t,
      run k { w := w, activity := .idle, pc := 0, oc := 0, mem := Memory.empty, requests := r :: rest,
              responses := resps, freeDraws := fd } = .next t ∧
        t.Idle ∧ t.requests = rest ∧ t.responses = resps ++ [resp]) : Answers r resp := by
  intro s hs rest hr
  obtain ⟨w, act, pc, oc, mem, reqs, resps, fd⟩ := s
  obtain ⟨h1, h2, h3, h4⟩ := hs
  simp only at h1 h2 h3 h4 hr
  subst h1 h2 h3 h4 hr
  obtain ⟨t, ht⟩ := h w rest resps fd
  exact ⟨k, t, ht⟩

/-- `write_field(1000000000, 1000, 3, 3)`: `OVERFLOW_ERROR`. -/
theorem witness_OverflowErrorCriterion :
    Answers { op := 2#3, value := 1000000000#64, newDigits := 1000#64, position := 3#5, width := 3#5 }
      (faulty .overflowError) ∧ SupportedField 3#5 3#5 ∧ 10 ^ (3#5).toNat ≤ (1000#64).toNat :=
  ⟨answers_of_run 1 fun _ _ _ _ => ⟨_, rfl, ⟨rfl, rfl, rfl, rfl⟩, rfl, rfl⟩, by decide, by decide⟩

theorem witness_ExceedsI32Compares :
    (2147483647#64).toNat ≤ 2147483647 ∧ 2147483647 < (2147483648#64).toNat := by decide

theorem witness_GuardBoundsTheByteCount :
    ((2147483648#64).toNat = (List.replicate 2147483648 0#8).length ∧
      Answers { op := 3#3, n := 2147483648#64 } (completed (.bool true))) ∧
    ((2147483647#64).toNat = (List.replicate 2147483647 0#8).length ∧
      Answers { op := 3#3, n := 2147483647#64 } (completed (.bool false))) ∧
    Answers (decodeRequestOf [256#32]) (faulty .invalidPackedValue) :=
  ⟨⟨by rw [List.length_replicate]; rfl, answers_of_run 1 fun _ _ _ _ => ⟨_, rfl, ⟨rfl, rfl, rfl, rfl⟩, rfl, rfl⟩⟩,
    ⟨by rw [List.length_replicate]; rfl, answers_of_run 1 fun _ _ _ _ => ⟨_, rfl, ⟨rfl, rfl, rfl, rfl⟩, rfl, rfl⟩⟩,
    answers_of_run 2 fun _ _ _ _ => ⟨_, rfl, ⟨rfl, rfl, rfl, rfl⟩, rfl, rfl⟩⟩

theorem witness_ReservedCodesAreIllegal :
    decodeRequest { op := 6#3 } = .reserved 0#1 ∧ decodeRequest { op := 7#3 } = .reserved 1#1 := by decide

theorem witness_EncodeGuardsThenBegins :
    2147483647 < (List.replicate 2147483648 0#8).length ∧ (List.replicate 2147483647 0#8).length ≤ 2147483647 ∧
      ([] : List Byte).length ≤ 2147483647 := by
  rw [List.length_replicate, List.length_replicate]; decide

theorem witness_FieldWriteOrderIsFree :
    [writeC 3#8, writeA 1#8, writeB 2#8].Perm [writeA 1#8, writeB 2#8, writeC 3#8] ∧
    [writeTag 2#64, writeC 3#8, writeB 2#8].Perm [writeB 2#8, writeC 3#8, writeTag 2#64] ∧
    [writeTag 0#64, writeC 3#8].Perm [writeC 3#8, writeTag 0#64] := by decide

theorem witness_FirstByteInTheHighestField :
    (∃ t, exec (.pack3 255#8 0#8 1#8) State.reset = .next t) ∧ (∃ t, exec (.pack2 255#8 0#8) State.reset = .next t) ∧
      ∃ t, exec (.pack1 255#8) State.reset = .next t :=
  ⟨⟨_, rfl⟩, ⟨_, rfl⟩, ⟨_, rfl⟩⟩

theorem witness_EncodeRespondsAfterItsGroups :
    ((idleWith [encodeRequest []]).Idle ∧ (encodeRequest []).op = 4#3 ∧ (encodeRequest []).bytes.length ≤ 2147483647) ∧
    (idleWith [encodeRequest [1#8, 2#8, 3#8, 4#8], { op := 0#3 }]).Idle ∧
    (encodeRequest (List.replicate 2147483647 0#8)).bytes.length ≤ 2147483647 :=
  ⟨by decide, by decide, by rw [encodeRequest, List.length_replicate]⟩

/-- Inputs of 4 and 5 bytes: a full group, a remainder of 1, a remainder of 2. -/
theorem answers_encode_4 : Answers (encodeRequest [1#8, 2#8, 3#8, 4#8]) (completed (.packedValues [1001002003#32, 4#32])) :=
  answers_of_run 4 fun _ _ _ _ => ⟨_, rfl, ⟨rfl, rfl, rfl, rfl⟩, rfl, rfl⟩
theorem answers_encode_5 :
    Answers (encodeRequest [255#8, 255#8, 255#8, 255#8, 255#8])
      (completed (.packedValues [1255255255#32, 2000255255#32])) :=
  answers_of_run 4 fun _ _ _ _ => ⟨_, rfl, ⟨rfl, rfl, rfl, rfl⟩, rfl, rfl⟩
theorem answers_encode_255 : Answers (encodeRequest [255#8]) (completed (.packedValues [255#32])) :=
  answers_of_run 3 fun _ _ _ _ => ⟨_, rfl, ⟨rfl, rfl, rfl, rfl⟩, rfl, rfl⟩
theorem answers_decode_255 : Answers (decodeRequestOf [255#32]) (completed (.bytes [255#8])) :=
  answers_of_run 3 fun _ _ _ _ => ⟨_, rfl, ⟨rfl, rfl, rfl, rfl⟩, rfl, rfl⟩
theorem answers_decode_pair : Answers (decodeRequestOf [2001002003#32]) (completed (.bytes [2#8, 3#8])) :=
  answers_of_run 3 fun _ _ _ _ => ⟨_, rfl, ⟨rfl, rfl, rfl, rfl⟩, rfl, rfl⟩

theorem witness_EncodeKeepsInputOrder :
    (Answers (encodeRequest [1#8, 2#8, 3#8, 4#8]) (completed (.packedValues [1001002003#32, 4#32])) ∧
      [1#8, 2#8, 3#8, 4#8][3 * 0]? = some 1#8 ∧ [1#8, 2#8, 3#8, 4#8][3 * 0 + 1]? = some 2#8 ∧
      [1#8, 2#8, 3#8, 4#8][3 * 0 + 2]? = some 3#8 ∧ [1#8, 2#8, 3#8, 4#8].length % 3 = 1 ∧
      [1#8, 2#8, 3#8, 4#8][4 - 1]? = some 4#8) ∧
    (Answers (encodeRequest [255#8, 255#8, 255#8, 255#8, 255#8])
        (completed (.packedValues [1255255255#32, 2000255255#32])) ∧
      [255#8, 255#8, 255#8, 255#8, 255#8].length % 3 = 2 ∧
      [255#8, 255#8, 255#8, 255#8, 255#8][5 - 2]? = some 255#8 ∧
      [255#8, 255#8, 255#8, 255#8, 255#8][5 - 1]? = some 255#8) :=
  ⟨⟨answers_encode_4, by decide⟩, ⟨answers_encode_5, by decide⟩⟩

theorem witness_EncodeLengthAndInjectivity :
    [1#8, 2#8, 3#8].length % 3 = 0 ∧
    Answers (encodeRequest [1#8, 2#8, 3#8]) (completed (.packedValues [1001002003#32])) ∧
    Answers (encodeRequest [255#8]) (completed (.packedValues [255#32])) ∧
    Answers (encodeRequest ([1#8, 2#8, 3#8] ++ [255#8])) (completed (.packedValues [1001002003#32, 255#32])) :=
  ⟨rfl, answers_of_run 3 fun _ _ _ _ => ⟨_, rfl, ⟨rfl, rfl, rfl, rfl⟩, rfl, rfl⟩, answers_encode_255,
    answers_of_run 4 fun _ _ _ _ => ⟨_, rfl, ⟨rfl, rfl, rfl, rfl⟩, rfl, rfl⟩⟩

/-- The largest canonical value of each form. -/
theorem witness_EncodeEmitsExactlyTheCanonicalValues :
    (Answers (encodeRequest [255#8, 255#8, 255#8, 255#8, 255#8])
        (completed (.packedValues [1255255255#32, 2000255255#32])) ∧
      2000255255#32 ∈ [1255255255#32, 2000255255#32]) ∧
    Canonical 1255255255#32 ∧ Canonical 2000255255#32 ∧ Canonical 255#32 :=
  ⟨⟨answers_encode_5, by decide⟩, .inl ⟨255#8, 255#8, 255#8, by decide⟩, .inr (.inl ⟨255#8, 255#8, by decide⟩),
    .inr (.inr (by decide))⟩

theorem witness_ModeTagFixesTheByteCount :
    (Answers (encodeRequest [1#8, 2#8, 3#8, 4#8]) (completed (.packedValues [1001002003#32, 4#32])) ∧
      [1001002003#32, 4#32][0]? = some 1001002003#32 ∧ [1001002003#32, 4#32][1]? = some 4#32 ∧
      3 * 0 + 3 ≤ 4 ∧ 3 * 1 + 1 = 4) ∧
    (Answers (encodeRequest [255#8, 255#8, 255#8, 255#8, 255#8])
        (completed (.packedValues [1255255255#32, 2000255255#32])) ∧
      [1255255255#32, 2000255255#32][1]? = some 2000255255#32 ∧ 3 * 1 + 2 = 5) ∧
    unpack 1255255255#32 = .ok [255#8, 255#8, 255#8] ∧ unpack 2147255255#32 = .ok [255#8, 255#8] ∧
    unpack 999999255#32 = .ok [255#8] :=
  ⟨⟨answers_encode_4, by decide⟩, ⟨answers_encode_5, by decide⟩, by decide⟩

/-- Each clause at its largest fields, and each fault one above. -/
theorem witness_UnpackYieldsTheSelectedFields :
    (0 ≤ (1255255255#32).toInt ∧ dec 10 10 (1255255255#32).toNat = 1 ∧ (255#8).toNat = dec 9 7 (1255255255#32).toNat ∧
      (255#8).toNat = dec 6 4 (1255255255#32).toNat ∧ (255#8).toNat = dec 3 1 (1255255255#32).toNat) ∧
    (0 ≤ (2147255255#32).toInt ∧ dec 10 10 (2147255255#32).toNat = 2 ∧ (255#8).toNat = dec 6 4 (2147255255#32).toNat ∧
      (255#8).toNat = dec 3 1 (2147255255#32).toNat) ∧
    (0 ≤ (999999255#32).toInt ∧ dec 10 10 (999999255#32).toNat = 0 ∧ (255#8).toNat = dec 3 1 (999999255#32).toNat) ∧
    (-1 : PackedValue).toInt < 0 ∧
    (dec 10 10 (1256255255#32).toNat = 1 ∧ 255 < dec 9 7 (1256255255#32).toNat) ∧
    (dec 10 10 (2000256255#32).toNat ≠ 0 ∧ 255 < dec 6 4 (2000256255#32).toNat) ∧
    255 < dec 3 1 (256#32).toNat := by decide

theorem witness_SmallValuesHaveTagZero : (255#64).toNat ≤ 255 := by decide

theorem witness_DecodeRespondsAfterItsValues :
    ((idleWith [decodeRequestOf []]).Idle ∧ (decodeRequestOf []).op = 5#3 ∧ decodeSeq [] = some []) ∧
    (idleWith [decodeRequestOf [1001002003#32, 1255#32], { op := 0#3 }]).Idle ∧
    decodeSeq [1001002003#32, 1255#32] = some [1#8, 2#8, 3#8, 255#8] := by decide

/-- The first value illegal, and the second after an accepted one. -/
theorem witness_DecodeStopsAtTheFirstIllegalValue :
    ((idleWith [decodeRequestOf [256#32, 5#32]]).Idle ∧ [256#32, 5#32][0]? = some 256#32 ∧ bytesOf 256#32 = none ∧
      ∀ (i : Nat) (u : PackedValue), i < 0 → [256#32, 5#32][i]? = some u → bytesOf u ≠ none) ∧
    ([1001002003#32, -1#32][1]? = some (-1#32) ∧ bytesOf (-1#32) = none ∧
      ∀ (i : Nat) (u : PackedValue), i < 1 → [1001002003#32, -1#32][i]? = some u → bytesOf u ≠ none) := by
  refine ⟨⟨by decide, rfl, rfl, fun i u h => absurd h (Nat.not_lt_zero i)⟩, rfl, rfl, fun i u h hu => ?_⟩
  obtain rfl : i = 0 := Nat.lt_one_iff.mp h
  obtain rfl : 1001002003#32 = u := Option.some.inj hu
  decide

theorem witness_DecodeConcatenates :
    Answers (decodeRequestOf [255#32]) (completed (.bytes [255#8])) ∧
    Answers (decodeRequestOf [2001002003#32]) (completed (.bytes [2#8, 3#8])) :=
  ⟨answers_decode_255, answers_decode_pair⟩

theorem witness_DecodeUndoesEncode :
    ([] : List Byte).length ≤ 2147483647 ∧ (List.replicate 2147483647 255#8).length ≤ 2147483647 := by
  rw [List.length_replicate]; decide

theorem witness_EncodeUndoesDecodeOnlyOnItsOutput :
    Answers (encodeRequest [255#8]) (completed (.packedValues [255#32])) ∧
    Answers (decodeRequestOf [255#32]) (completed (.bytes [255#8])) :=
  ⟨answers_encode_255, answers_decode_255⟩

theorem witness_PiecesDecodeToTheWhole :
    Answers (encodeRequest [255#8]) (completed (.packedValues [255#32])) ∧
    Answers (encodeRequest [1#8, 2#8, 3#8, 4#8]) (completed (.packedValues [1001002003#32, 4#32])) ∧
    Answers (encodeRequest ([255#8] ++ [1#8, 2#8, 3#8, 4#8]))
      (completed (.packedValues [1255001002#32, 2000003004#32])) :=
  ⟨answers_encode_255, answers_encode_4,
    answers_of_run 4 fun _ _ _ _ => ⟨_, rfl, ⟨rfl, rfl, rfl, rfl⟩, rfl, rfl⟩⟩

/-- A field write and a clear, inputs with each kind of short group, the longest input, and the value of each tag
nearest the bound. -/
theorem witness_SourceInvariants :
    (List.replicate 2147483647 255#8).length ≤ 2147483647 ∧
    writeField 1099100101#64 7#64 6#5 3#5 = .ok 1099007101#64 ∧
    zeroField 1099100101#64 6#5 3#5 = .ok 1099000101#64 ∧
    (Answers (encodeRequest [1#8, 2#8, 3#8, 4#8]) (completed (.packedValues [1001002003#32, 4#32])) ∧
      [1001002003#32, 4#32][1]? = some 4#32 ∧ groupByteCount 4 0 = 3 ∧ groupByteCount 4 1 = 1) ∧
    (Answers (encodeRequest [255#8, 255#8, 255#8, 255#8, 255#8])
        (completed (.packedValues [1255255255#32, 2000255255#32])) ∧
      [1255255255#32, 2000255255#32][1]? = some 2000255255#32 ∧ groupByteCount 5 1 = 2) ∧
    unpack 2147255255#32 = .ok [255#8, 255#8] ∧
    (modeTag 1000000000#32 = 1 ∧ modeTag 2000000000#32 = 2 ∧ modeTag 255#32 = 0 ∧ Canonical 255#32) :=
  ⟨by rw [List.length_replicate], by decide, by decide, ⟨answers_encode_4, by decide⟩, ⟨answers_encode_5, by decide⟩,
    by decide, by decide, by decide, by decide, .inr (.inr (by decide))⟩

/-! ### Witnesses: encodings and the machine -/

theorem witness_DecodeUndoesTheEncoder :
    (Instr.readField 1#64 31#5 31#5).wellFormed = true ∧ (Instr.encodeBytes [1#8]).wellFormed = true ∧
    (Instr.pv2 147 255#8 255#8).wellFormed = true ∧ (Instr.pv1 999 999 255#8).wellFormed = true ∧
    (Instr.pvFieldTooLarge 2 147 483 647).wellFormed = true ∧
    (Instr.pvNegative 0x80000000#32).wellFormed = true := by decide

theorem witness_DigitGroupsDecomposeTheNumber :
    9999999999 ≤ 9999999999 ∧ (9 ≤ 9 ∧ 999 ≤ 999 ∧ 9999999999 = 9 * 10 ^ 9 + 999 * 10 ^ 6 + 999 * 10 ^ 3 + 999) ∧
    (9 = dec 10 10 9999999999 ∧ 999 = dec 9 7 9999999999 ∧ 999 = dec 6 4 9999999999 ∧ 999 = dec 3 1 9999999999) := by
  decide

theorem witness_StepRunsTheRequestOnThePort :
    (idleWith [{ op := 7#3 }]).activity = .idle ∧ decode (.request { op := 7#3 }) = .ok (.reserved 1#1) := by decide

/-- One byte left, and none. -/
theorem witness_StepRunsTheEncoderGroup :
    ((inEncode [1#8, 2#8, 3#8, 4#8] 3).activity = .encoding ∧ (inEncode [1#8, 2#8, 3#8, 4#8] 3).pc < 4 ∧
      (inEncode [1#8, 2#8, 3#8, 4#8] 3).mem.inBytes.length = 4) ∧
    (inEncode [1#8, 2#8, 3#8, 4#8] 4).mem.inBytes.length ≤ (inEncode [1#8, 2#8, 3#8, 4#8] 4).pc := by decide

theorem witness_StepRunsTheDecoderGroup :
    ((inDecode [5#32]).activity = .decoding ∧ (inDecode [5#32]).mem.inValues[(inDecode [5#32]).pc]? = some 5#32) ∧
    ((inDecode []).activity = .decoding ∧ (inDecode []).mem.inValues.length ≤ (inDecode []).pc) := by decide

theorem witness_IdleBlockWaits : State.reset.activity = .idle ∧ State.reset.requests = [] := by decide

theorem witness_OneResponseForEachRequest :
    (∃ t, step (idleWith [{ op := 7#3 }]) = .next t) ∧ (∃ t, step (inEncode [1#8] 0) = .next t) ∧
      ∃ t, step State.reset = .next t :=
  ⟨⟨_, rfl⟩, ⟨_, rfl⟩, ⟨_, rfl⟩⟩

theorem witness_BatchOperationsMoveForward :
    (∃ t, step (inEncode [1#8] 0) = .next t ∧ (inEncode [1#8] 0).activity ≠ .idle ∧ t.activity ≠ .idle) ∧
    ∃ t, step (inDecode [5#32]) = .next t ∧ (inDecode [5#32]).activity ≠ .idle ∧ t.activity ≠ .idle :=
  ⟨⟨_, rfl, by decide, by decide⟩, ⟨_, rfl, by decide, by decide⟩⟩

theorem witness_OnlyPackStepsWriteTheWorkingValue :
    (∃ t, exec (.pack1 5#8) State.reset = .next t) ∧ ∃ t, exec (.unpack 5#32) State.reset = .next t :=
  ⟨⟨_, rfl⟩, ⟨_, rfl⟩⟩

theorem witness_StatusesOfEachOperation :
    Answers { op := 6#3 } (faulty .illegalOp) ∧
    Answers (encodeRequest [255#8]) (completed (.packedValues [255#32])) :=
  ⟨answers_of_run 1 fun _ _ _ _ => ⟨_, rfl, ⟨rfl, rfl, rfl, rfl⟩, rfl, rfl⟩, answers_encode_255⟩

/-- The block right after reset, and one with another past and another request waiting, run one step longer. -/
theorem witness_ResponseDependsOnTheRequestOnly :
    ∃ t₁ t₂, (idleWith [{ op := 6#3 }]).Idle ∧
      { idleWith [{ op := 6#3 }] with w := 5#64, responses := [faulty .domainError] }.Idle ∧
      run 1 (idleWith [{ op := 6#3 }]) = .next t₁ ∧
      run 2 { idleWith [{ op := 6#3 }] with w := 5#64, responses := [faulty .domainError] } = .next t₂ ∧
      t₁.responses = [] ++ [faulty .illegalOp] ∧ t₂.responses = [faulty .domainError] ++ [faulty .illegalOp] :=
  ⟨_, _, by decide, by decide, rfl, rfl, rfl, rfl⟩

theorem witness_ProgramsAreServedInOrder : (idleWith [{ op := 6#3 }, encodeRequest [1#8]]).Idle := by decide

/-- Idle with a request, inside an ENCODE just begun, inside a DECODE just begun: the invariant and a step. -/
theorem witness_EveryStepKeepsTheInvariant :
    ((idleWith [{ op := 7#3 }]).Inv ∧ ∃ t, step (idleWith [{ op := 7#3 }]) = .next t) ∧
    ((inEncode [1#8, 2#8, 3#8, 4#8] 0).Inv ∧ ∃ t, step (inEncode [1#8, 2#8, 3#8, 4#8] 0) = .next t) ∧
    ((inDecode [5#32]).Inv ∧ ∃ t, step (inDecode [5#32]) = .next t) :=
  ⟨⟨⟨by decide, by decide, by decide, rfl, rfl, rfl, rfl⟩, _, rfl⟩,
    ⟨⟨by decide, by decide, by decide, ⟨_, _, rfl, rfl, rfl⟩, by decide, by decide, by decide, rfl, rfl, rfl, rfl⟩, _, rfl⟩,
    ⟨⟨by decide, by decide, by decide, ⟨_, _, rfl, rfl, rfl⟩, by decide, by decide, rfl, rfl, rfl⟩, _, rfl⟩⟩

theorem witness_ExternalResetAbandonsTheOperation :
    State.reset.activity = .idle ∧ (inEncode [1#8] 0).activity ≠ .idle := by decide

end Sys2Proof.Tests
end

section
/-! The source's own four invariants (00_scope.md R12): field isolation, the closed forms of ENCODE and DECODE and their
round trip, the mode tag, and the whole batch operations from request to response. -/

namespace Sys2Proof.Machine

/-! ### Digit groups of plain numbers after a change of one field (40_digit_field_mux.md R98) -/

/-- Clearing a group is writing 0 to it (R99). -/
theorem zeroDigits_eq_writeDigits_zero (v p w : Nat) : zeroDigits v p w = writeDigits v 0 p w := by
  simp [writeDigits]

/-- A written value is the digits above the field, the new group and the digits below, each in its place. -/
theorem writeDigits_eq (v x p w : Nat) :
    writeDigits v x p w = (v / 10 ^ (p - w) / 10 ^ w * 10 ^ w + x) * 10 ^ (p - w) + v % 10 ^ (p - w) := by
  have hv := Nat.div_add_mod' v (10 ^ (p - w))
  have hg := Nat.div_add_mod' (v / 10 ^ (p - w)) (10 ^ w)
  simp only [writeDigits, zeroDigits, readDigits]
  generalize 10 ^ (p - w) = q at *
  generalize v / q % 10 ^ w = g at *
  rw [← hg, Nat.add_mul] at hv
  rw [Nat.add_mul]
  omega

theorem writeDigits_mod (v x p w : Nat) : writeDigits v x p w % 10 ^ (p - w) = v % 10 ^ (p - w) := by
  rw [writeDigits_eq, Nat.mul_add_mod_self_right, Nat.mod_mod]

theorem writeDigits_div (v x p w : Nat) :
    writeDigits v x p w / 10 ^ (p - w) = v / 10 ^ (p - w) / 10 ^ w * 10 ^ w + x := by
  have hq : 0 < 10 ^ (p - w) := Nat.pow_pos (by decide)
  rw [writeDigits_eq, Nat.mul_comm, Nat.mul_add_div hq, Nat.div_eq_of_lt (Nat.mod_lt v hq), Nat.add_zero]

/-- The written field reads what was written. -/
theorem readDigits_writeDigits (v p : Nat) {x w : Nat} (hx : x < 10 ^ w) :
    readDigits (writeDigits v x p w) p w = x := by
  rw [readDigits, writeDigits_div, Nat.mul_add_mod_self_right, Nat.mod_eq_of_lt hx]

/-- The digits above the written field stand. -/
theorem writeDigits_div_top (v : Nat) {x p w : Nat} (hw : w ≤ p) (hx : x < 10 ^ w) :
    writeDigits v x p w / 10 ^ p = v / 10 ^ p := by
  have hp : 10 ^ p = 10 ^ (p - w) * 10 ^ w := by rw [← Nat.pow_add, Nat.sub_add_cancel hw]
  rw [hp, ← Nat.div_div_eq_div_mul, ← Nat.div_div_eq_div_mul, writeDigits_div, Nat.mul_comm,
    Nat.mul_add_div (Nat.pow_pos (by decide)), Nat.div_eq_of_lt hx, Nat.add_zero]

/-- A digit above position `n` is a digit of the quotient by 10^n. -/
theorem dig_eq_of_div_eq {u v n k : Nat} (hk : n < k) (h : u / 10 ^ n = v / 10 ^ n) : dig u k = dig v k := by
  have hp : 10 ^ (k - 1) = 10 ^ n * 10 ^ (k - 1 - n) := by rw [← Nat.pow_add]; congr 1; omega
  simp only [dig, hp, ← Nat.div_div_eq_div_mul, h]

/-- A digit at position `n` or below is a digit of the remainder by 10^n. -/
theorem dig_eq_of_mod_eq {u v n k : Nat} (hk : 1 ≤ k) (hn : k ≤ n) (h : u % 10 ^ n = v % 10 ^ n) :
    dig u k = dig v k := by
  have hp : 10 ^ n = 10 ^ (k - 1) * 10 * 10 ^ (n - k) := by
    rw [← Nat.pow_succ, ← Nat.pow_add]; congr 1; omega
  have hd : ∀ m, dig m k = m % 10 ^ n % (10 ^ (k - 1) * 10) / 10 ^ (k - 1) := fun m => by
    rw [hp, Nat.mod_mul_right_mod, Nat.mod_mul_right_div_self, dig]
  rw [hd, hd, h]

/-! ### Field isolation (R98) -/

/-- What a ZERO_FIELD that answers a number has checked and computed. -/
theorem zeroField_ok {v z : WorkingValue} {p w : FieldIndex} (h : zeroField v p w = .ok z) :
    SupportedField p w ∧ z.toNat = zeroDigits v.toNat p.toNat w.toNat := by
  by_cases hd : SupportedField p w
  · obtain ⟨z', e, hz⟩ := zeroField_of_supported v hd
    rw [e] at h
    cases h
    exact ⟨hd, hz⟩
  · rw [zeroField_of_unsupported v hd] at h
    cases h

/-- Inside the domain the field's digit range is the group that READ_FIELD reads. -/
theorem dec_field_eq_readDigits {p w : FieldIndex} (hd : SupportedField p w) (v : Nat) :
    dec p.toNat (p.toNat - w.toNat + 1) v = readDigits v p.toNat w.toNat := by
  obtain ⟨h1, h2, _⟩ := hd
  rw [dec_eq_readDigits (by omega)]
  congr 1
  omega

/-- Replacing one digit group is an isolated change. -/
theorem fieldIsolated_of_writeDigits {v v' x : WorkingValue} {p w : FieldIndex} (hd : SupportedField p w)
    (hx : x.toNat < 10 ^ w.toNat) (hv : v'.toNat = writeDigits v.toNat x.toNat p.toNat w.toNat) :
    FieldIsolated v v' x p w := by
  have hread : readDigits v'.toNat p.toNat w.toNat = x.toNat := by rw [hv, readDigits_writeDigits _ _ hx]
  refine ⟨fun k hk hout => ?_, by rw [dec_field_eq_readDigits hd, hread], ?_⟩
  · rw [hv]
    rcases hout with habove | hbelow
    · exact dig_eq_of_div_eq habove (writeDigits_div_top _ hd.2.1 hx)
    · exact dig_eq_of_mod_eq hk (Nat.le_of_lt_succ hbelow) (writeDigits_mod _ _ _ _)
  · obtain ⟨g, hg, hgn⟩ := readField_of_supported v' hd
    rw [hg, BitVec.eq_of_toNat_eq (hgn.trans hread)]

theorem writeField_isolated {v x v' : WorkingValue} {p w : FieldIndex} (h : writeField v x p w = .ok v') :
    FieldIsolated v v' x p w := by
  obtain ⟨hd, hx, hv⟩ := writeField_ok h
  exact fieldIsolated_of_writeDigits hd hx hv

theorem zeroField_isolated {v z : WorkingValue} {p w : FieldIndex} (h : zeroField v p w = .ok z) :
    FieldIsolated v z 0#64 p w := by
  obtain ⟨hd, hz⟩ := zeroField_ok h
  exact fieldIsolated_of_writeDigits hd (Nat.pow_pos (by decide)) (hz.trans (zeroDigits_eq_writeDigits_zero _ _ _))

/-! ### The packed values that ENCODE emits, and the classes of packed value -/

theorem packed3_toNat (a b c : Byte) :
    (packed3 a b c).toNat = 10 ^ 9 + a.toNat * 10 ^ 6 + b.toNat * 10 ^ 3 + c.toNat := by
  have ha := a.isLt; have hb := b.isLt; have hc := c.isLt
  simp only [packed3, packedOfDigits, packedNumber, BitVec.toNat_ofNat]
  omega

theorem packed2_toNat (a b : Byte) : (packed2 a b).toNat = 2 * 10 ^ 9 + a.toNat * 10 ^ 3 + b.toNat := by
  have ha := a.isLt; have hb := b.isLt
  simp only [packed2, packedOfDigits, packedNumber, BitVec.toNat_ofNat]
  omega

theorem packed1_toNat (a : Byte) : (packed1 a).toNat = a.toNat := by
  have ha := a.isLt
  simp only [packed1, packedOfDigits, packedNumber, BitVec.toNat_ofNat]
  omega

/-- A number of at most `I32_MAX` is read as digits, not as a negative value. -/
theorem decodePackedValue_of_le {v : PackedValue} (h : v.toNat ≤ 2147483647) :
    decodePackedValue v = classify (dec 10 10 v.toNat) (dec 9 7 v.toNat) (dec 6 4 v.toNat) (dec 3 1 v.toNat) := by
  have hn : ¬v.toInt < 0 := by
    rw [BitVec.toInt_eq_toNat_of_lt (by omega)]
    omega
  rw [decodePackedValue, if_neg hn]

/-- The digit groups of a number written as such. -/
theorem dec_packedNumber {t a b c : Nat} (ht : t ≤ 9) (ha : a ≤ 999) (hb : b ≤ 999) (hc : c ≤ 999) :
    dec 10 10 (packedNumber t a b c) = t ∧ dec 9 7 (packedNumber t a b c) = a ∧
      dec 6 4 (packedNumber t a b c) = b ∧ dec 3 1 (packedNumber t a b c) = c := by
  simp only [dec, packedNumber]
  omega

/-- Reading the digits of a packed value gives back the groups it was written from. -/
theorem decodePackedValue_packedOfDigits {t a b c : Nat} (ha : a ≤ 999) (hb : b ≤ 999) (hc : c ≤ 999)
    (h : packedNumber t a b c ≤ 2147483647) : decodePackedValue (packedOfDigits t a b c) = classify t a b c := by
  have hv : (packedOfDigits t a b c).toNat = packedNumber t a b c := by
    rw [packedOfDigits, BitVec.toNat_ofNat]
    omega
  have ht : t ≤ 9 := by rw [packedNumber] at h; omega
  obtain ⟨h10, h9, h6, h3⟩ := dec_packedNumber ht ha hb hc
  rw [decodePackedValue_of_le (by rw [hv]; exact h), hv, h10, h9, h6, h3]

theorem decodePackedValue_packed3 (a b c : Byte) : decodePackedValue (packed3 a b c) = .pv3 a b c := by
  have ha := a.isLt; have hb := b.isLt; have hc := c.isLt
  rw [packed3, decodePackedValue_packedOfDigits (by omega) (by omega) (by omega) (by rw [packedNumber]; omega),
    classify, if_pos ⟨rfl, Nat.le_of_lt_succ ha, Nat.le_of_lt_succ hb, Nat.le_of_lt_succ hc⟩]
  simp

theorem decodePackedValue_packed2 (a b : Byte) : decodePackedValue (packed2 a b) = .pv2 0 a b := by
  have ha := a.isLt; have hb := b.isLt
  rw [packed2, decodePackedValue_packedOfDigits (by omega) (by omega) (by omega) (by rw [packedNumber]; omega),
    classify, if_neg (by omega), if_pos ⟨rfl, Nat.le_of_lt_succ ha, Nat.le_of_lt_succ hb⟩]
  simp

theorem decodePackedValue_packed1 (a : Byte) : decodePackedValue (packed1 a) = .pv1 0 0 a := by
  have ha := a.isLt
  rw [packed1, decodePackedValue_packedOfDigits (by omega) (by omega) (by omega) (by rw [packedNumber]; omega),
    classify, if_neg (by omega), if_neg (by omega), if_pos ⟨rfl, Nat.le_of_lt_succ ha⟩]
  simp

@[simp] theorem bytesOf_packed3 (a b c : Byte) : bytesOf (packed3 a b c) = some [a, b, c] := by
  rw [bytesOf, decodePackedValue_packed3, yields]

@[simp] theorem bytesOf_packed2 (a b : Byte) : bytesOf (packed2 a b) = some [a, b] := by
  rw [bytesOf, decodePackedValue_packed2, yields]

@[simp] theorem bytesOf_packed1 (a : Byte) : bytesOf (packed1 a) = some [a] := by
  rw [bytesOf, decodePackedValue_packed1, yields]

/-- UNPACK answers bytes exactly when the value's class holds them. -/
theorem unpack_eq_ok_iff {v : PackedValue} {out : List Byte} : unpack v = .ok out ↔ bytesOf v = some out := by
  rw [unpack_eq_bytesOf]
  cases bytesOf v <;> simp

theorem decodeSeq_cons_of_some {v : PackedValue} {vs : List PackedValue} {bs more : List Byte}
    (hv : bytesOf v = some bs) (hvs : decodeSeq vs = some more) : decodeSeq (v :: vs) = some (bs ++ more) := by
  simp [decodeSeq, hv, hvs]

/-- A sequence that decodes begins with a value that holds bytes, and the rest decodes. -/
theorem decodeSeq_cons_some {v : PackedValue} {vs : List PackedValue} {out : List Byte}
    (h : decodeSeq (v :: vs) = some out) :
    ∃ bs more, bytesOf v = some bs ∧ decodeSeq vs = some more ∧ out = bs ++ more := by
  rw [decodeSeq] at h
  split at h
  next bs more hv hvs => exact ⟨bs, more, hv, hvs, (Option.some.inj h).symm⟩
  next => cases h

/-- The round trip on the closed forms (R150). -/
theorem decodeSeq_encodeSeq (bs : List Byte) : decodeSeq (encodeSeq bs) = some bs := by
  induction bs using encodeSeq.induct with
  | case1 a b c rest ih => exact decodeSeq_cons_of_some (bytesOf_packed3 a b c) ih
  | case2 a b => exact decodeSeq_cons_of_some (bytesOf_packed2 a b) rfl
  | case3 a => exact decodeSeq_cons_of_some (bytesOf_packed1 a) rfl
  | case4 => rfl

/-! ### The mode tag (30_encoding.md R61, R62, R67) -/

theorem modeTag_eq (v : PackedValue) : modeTag v = v.toNat / 10 ^ 9 % 10 := rfl

theorem modeTag_eq_dec (v : PackedValue) : modeTag v = dec 10 10 v.toNat := rfl

@[simp] theorem modeTag_packed3 (a b c : Byte) : modeTag (packed3 a b c) = 1 := by
  have ha := a.isLt; have hb := b.isLt; have hc := c.isLt
  rw [modeTag_eq, packed3_toNat]
  omega

@[simp] theorem modeTag_packed2 (a b : Byte) : modeTag (packed2 a b) = 2 := by
  have ha := a.isLt; have hb := b.isLt
  rw [modeTag_eq, packed2_toNat]
  omega

@[simp] theorem modeTag_packed1 (a : Byte) : modeTag (packed1 a) = 0 := by
  have ha := a.isLt
  rw [modeTag_eq, packed1_toNat]
  omega

theorem tagByteCount_packed3 (a b c : Byte) : tagByteCount (modeTag (packed3 a b c)) = some 3 := by
  rw [modeTag_packed3, tagByteCount]

theorem tagByteCount_packed2 (a b : Byte) : tagByteCount (modeTag (packed2 a b)) = some 2 := by
  rw [modeTag_packed2, tagByteCount]

theorem tagByteCount_packed1 (a : Byte) : tagByteCount (modeTag (packed1 a)) = some 1 := by
  rw [modeTag_packed1, tagByteCount]

/-- The groups after a full one are those of the input behind it. -/
theorem groupByteCount_add_three (n i : Nat) : groupByteCount (n + 3) (i + 1) = groupByteCount n i := by
  simp only [groupByteCount, Config.group]
  omega

/-- Every class that holds bytes holds as many as its tag stands for. -/
theorem tagByteCount_of_yields_classify {t a b c : Nat} {out : List Byte} (h : yields (classify t a b c) = some out) :
    tagByteCount t = some out.length := by
  unfold classify at h
  split at h
  next ht => cases h; rw [ht.1]; rfl
  next =>
    split at h
    next ht => cases h; rw [ht.1]; rfl
    next =>
      split at h
      next ht => cases h; rw [ht.1]; rfl
      next => cases h

/-- Mode determinism on accepted values (R131). -/
theorem tagByteCount_of_unpack {v : PackedValue} {out : List Byte} (h : unpack v = .ok out) :
    tagByteCount (modeTag v) = some out.length := by
  rw [unpack_eq_ok_iff, bytesOf, decodePackedValue] at h
  split at h
  · cases h
  · rw [modeTag_eq_dec]
    exact tagByteCount_of_yields_classify h

/-- Mode determinism on encoder output (R131): the tag of the i-th value is the one of the i-th group's size. -/
theorem tagByteCount_of_encodeSeq {bs : List Byte} {i : Nat} {v : PackedValue} (h : (encodeSeq bs)[i]? = some v) :
    tagByteCount (modeTag v) = some (groupByteCount bs.length i) := by
  induction bs using encodeSeq.induct generalizing i with
  | case1 a b c rest ih =>
    rw [encodeSeq] at h
    cases i with
    | zero =>
      obtain rfl : packed3 a b c = v := Option.some.inj h
      rw [tagByteCount_packed3]
      simp [groupByteCount, Config.group]
    | succ j => rw [ih (i := j) h, ← groupByteCount_add_three]; rfl
  | case2 a b =>
    rw [encodeSeq, List.getElem?_singleton] at h
    obtain ⟨rfl, rfl⟩ : i = 0 ∧ packed2 a b = v := by simpa using h
    rw [tagByteCount_packed2]
    rfl
  | case3 a =>
    rw [encodeSeq, List.getElem?_singleton] at h
    obtain ⟨rfl, rfl⟩ : i = 0 ∧ packed1 a = v := by simpa using h
    rw [tagByteCount_packed1]
    rfl
  | case4 => cases h

/-- R67: the tag is the digit of weight 10^9, so a tag of 1 or 2 bounds the value from below. -/
theorem loadBearingBound (v : PackedValue) : LoadBearingBound v := by
  have htag := modeTag_eq v
  refine ⟨by omega, by omega, by omega, fun hcan => ?_⟩
  rcases hcan with ⟨a, b, c, hv⟩ | ⟨a, b, hv⟩ | hv
  · have ha := a.isLt; have hb := b.isLt; have hc := c.isLt
    omega
  · have ha := a.isLt; have hb := b.isLt
    omega
  · omega

/-! ### From a request to its response -/

/-- `k` steps from `s` give the response `resp` to the request on the port, and leave the block idle. -/
def RespondsIn (k : Nat) (s : State) (resp : Response) : Prop :=
  ∃ t, run k s = .next t ∧ t.Idle ∧ t.requests = s.requests.tail ∧ t.responses = s.responses ++ [resp]

/-- A step that gives the response is a run of one step that does. -/
theorem respondsIn_one {s : State} {resp : Response} (h : step s = .next (respond resp s)) : RespondsIn 1 s resp :=
  ⟨respond resp s, run_succ h, ⟨rfl, rfl, rfl, rfl⟩, rfl, rfl⟩

/-- A step that leaves both ports alone comes before the steps that respond. -/
theorem respondsIn_succ {s u : State} {k : Nat} {resp : Response} (h : step s = .next u)
    (hreq : u.requests = s.requests) (hres : u.responses = s.responses) (hu : RespondsIn k u resp) :
    RespondsIn (k + 1) s resp := by
  obtain ⟨t, hrun, hidle, htreq, htres⟩ := hu
  exact ⟨t, (run_succ h).trans hrun, hidle, by rw [htreq, hreq], by rw [htres, hres]⟩

theorem answers_of_respondsIn {r : Request} {resp : Response} (k : Nat)
    (h : ∀ (s : State) (rest : List Request), s.Idle → s.requests = r :: rest → RespondsIn k s resp) :
    Answers r resp := by
  intro s hs rest hr
  obtain ⟨t, hrun, hidle, htreq, htres⟩ := h s rest hs hr
  exact ⟨k, t, hrun, hidle, by rw [htreq, hr, List.tail_cons], htres⟩

/-- The idle block runs the instruction its request decodes to, and nothing else. -/
theorem step_idle_of_request {s t : State} {r : Request} {rest : List Request} (hs : s.activity = .idle)
    (hr : s.requests = r :: rest) (he : exec (decodeRequest r) s = .next t) : step s = .next t := by
  have hsel : select s = .run (decodeRequest r) := by simp only [select, hs, selectRequest_take hr]
  rw [step_run hsel he, settle_outside_encode (by simp [hs])]

/-- An idle block with no request stands still, however long it is run. -/
theorem run_waiting {s : State} (hs : s.activity = .idle) (hr : s.requests = []) (k : Nat) : run k s = .next s := by
  have hstep : step s = .next s := step_wait (by simp only [select, hs, selectRequest_wait hr])
  induction k with
  | zero => rfl
  | succ k ih => rw [run_succ hstep, ih]

/-- Two runs of one block, of any lengths, that both end idle with no request end in the same state. -/
theorem run_end_unique {s t u : State} {j k : Nat} (hj : run j s = .next t) (hk : run k s = .next u)
    (ht : t.activity = .idle) (htr : t.requests = []) (hu : u.activity = .idle) (hur : u.requests = []) : t = u := by
  have h₁ := (run_add k hj).trans (run_waiting ht htr k)
  have h₂ := (run_add j hk).trans (run_waiting hu hur j)
  rw [Nat.add_comm, h₂] at h₁
  exact (Host.Outcome.next.inj h₁).symm

/-- A request has at most one response. -/
theorem answers_unique {r : Request} {a b : Response} (ha : Answers r a) (hb : Answers r b) : a = b := by
  have hidle : ({ State.reset with requests := [r] } : State).Idle := ⟨rfl, rfl, rfl, rfl⟩
  obtain ⟨_, t, hrun, ht, htreq, htres⟩ := ha _ hidle [] rfl
  obtain ⟨_, u, hrun', hu, hureq, hures⟩ := hb _ hidle [] rfl
  have htu : t = u := run_end_unique hrun hrun' ht.1 htreq hu.1 hureq
  rw [htu, hures] at htres
  simpa using htres.symm

/-! ### ENCODE from request to response (42_packing_encoder.md R120 to R125) -/

/-- What a group step that read `n` bytes leaves: `W`, the value emitted, and both cursors moved. -/
def groupEmitted (w : WorkingValue) (v : PackedValue) (n : Nat) (s : State) : State :=
  advance n (emitValue v { s with w := w })

@[simp] theorem groupEmitted_activity (w : WorkingValue) (v : PackedValue) (n : Nat) (s : State) :
    (groupEmitted w v n s).activity = s.activity := rfl

@[simp] theorem groupEmitted_pc (w : WorkingValue) (v : PackedValue) (n : Nat) (s : State) :
    (groupEmitted w v n s).pc = s.pc + n := rfl

@[simp] theorem groupEmitted_mem (w : WorkingValue) (v : PackedValue) (n : Nat) (s : State) :
    (groupEmitted w v n s).mem = { s.mem with outValues := s.mem.outValues ++ [v] } := rfl

@[simp] theorem groupEmitted_requests (w : WorkingValue) (v : PackedValue) (n : Nat) (s : State) :
    (groupEmitted w v n s).requests = s.requests := rfl

@[simp] theorem groupEmitted_responses (w : WorkingValue) (v : PackedValue) (n : Nat) (s : State) :
    (groupEmitted w v n s).responses = s.responses := rfl

theorem packGroup_of_writes {writes : List FieldWrite} {m : Nat}
    (h : applyWrites Config.wInit writes = .ok (BitVec.ofNat 64 m)) (n : Nat) (s : State) :
    packGroup writes n s = groupEmitted (BitVec.ofNat 64 m) (BitVec.ofNat 32 m) n s := by
  simp only [packGroup, h, castToPacked_ofNat, groupEmitted]

theorem exec_pack3 (a b c : Byte) (s : State) : exec (.pack3 a b c) s =
    .next (groupEmitted (BitVec.ofNat 64 (packedNumber 1 a.toNat b.toNat c.toNat)) (packed3 a b c) 3 s) :=
  congrArg _ (packGroup_of_writes (applyWrites_pack3 a b c) 3 s)

theorem exec_pack2 (a b : Byte) (s : State) : exec (.pack2 a b) s =
    .next (groupEmitted (BitVec.ofNat 64 (packedNumber 2 0 a.toNat b.toNat)) (packed2 a b) 2 s) :=
  congrArg _ (packGroup_of_writes (applyWrites_pack2 a b) 2 s)

theorem exec_pack1 (a : Byte) (s : State) :
    exec (.pack1 a) s = .next (groupEmitted (BitVec.ofNat 64 a.toNat) (packed1 a) 1 s) := by
  have hv : packed1 a = BitVec.ofNat 32 a.toNat := by simp [packed1, packedOfDigits, packedNumber]
  rw [hv]
  exact congrArg _ (packGroup_of_writes (applyWrites_pack1 a) 1 s)

theorem step_encoding_end {s : State} (ha : s.activity = .encoding) (hend : s.mem.inBytes.length ≤ s.pc) :
    step s = .next (respond (completed (.packedValues s.mem.outValues)) s) := by
  rw [step_finish (by simp only [select, ha, selectEncode_at_end hend])]
  simp only [finish, ha]
  rfl

section GroupStep

variable {s : State} {i : Instr} {w : WorkingValue} {v : PackedValue} {n : Nat}

/-- A group step inside ENCODE leaves `W` unspecified behind it. -/
theorem step_encoding_group (ha : s.activity = .encoding) (hsel : selectEncode s = .run i)
    (he : exec i s = .next (groupEmitted w v n s)) : step s = .next (forgetW (groupEmitted w v n s)) := by
  rw [step_run (by simp only [select, ha, hsel]) he, settle_inside_encode ha]

/-- The group step that reads the last bytes comes right before the response. -/
theorem respondsIn_last_group (ha : s.activity = .encoding) (hsel : selectEncode s = .run i)
    (he : exec i s = .next (groupEmitted w v n s)) (hend : s.mem.inBytes.length ≤ s.pc + n) :
    RespondsIn 2 s (completed (.packedValues (s.mem.outValues ++ [v]))) := by
  have hlast : step (forgetW (groupEmitted w v n s)) = _ := step_encoding_end (by simpa using ha) (by simpa using hend)
  exact respondsIn_succ (step_encoding_group ha hsel he) (by simp) (by simp) (respondsIn_one hlast)

/-- A group step that is not the last puts its value before those of the rest of the run. -/
theorem respondsIn_group {k : Nat} {vs : List PackedValue} (ha : s.activity = .encoding)
    (hsel : selectEncode s = .run i) (he : exec i s = .next (groupEmitted w v n s))
    (hrest : ∀ u : State, u.activity = .encoding → u.mem.inBytes = s.mem.inBytes → u.pc = s.pc + n →
      RespondsIn k u (completed (.packedValues (u.mem.outValues ++ vs)))) :
    RespondsIn (k + 1) s (completed (.packedValues (s.mem.outValues ++ v :: vs))) := by
  have h := hrest (forgetW (groupEmitted w v n s)) (by simpa using ha) (by simp) (by simp)
  have hout : (forgetW (groupEmitted w v n s)).mem.outValues ++ vs = s.mem.outValues ++ v :: vs := by simp
  rw [hout] at h
  exact respondsIn_succ (step_encoding_group ha hsel he) (by simp) (by simp) h

end GroupStep

/-- Inside ENCODE with the bytes `l` left, the block takes a step for each group of `l` and one to respond with the
values of `l` behind those already emitted. -/
theorem respondsIn_encoding (l : List Byte) {s : State} (ha : s.activity = .encoding)
    (hl : s.mem.inBytes.drop s.pc = l) :
    RespondsIn ((l.length + 2) / 3 + 1) s (completed (.packedValues (s.mem.outValues ++ encodeSeq l))) := by
  have hlen : s.mem.inBytes.length ≤ s.pc + l.length := by rw [← hl, List.length_drop]; omega
  induction l using encodeSeq.induct generalizing s with
  | case1 a b c rest ih =>
    have hrest : s.mem.inBytes.drop (s.pc + 3) = rest := by rw [← List.drop_drop, hl]; rfl
    have hk : ((a :: b :: c :: rest).length + 2) / 3 = (rest.length + 2) / 3 + 1 := by
      simp only [List.length_cons]; omega
    rw [hk, encodeSeq]
    refine respondsIn_group ha (selectEncode_three hl) (exec_pack3 a b c s) fun u hact hin hpc => ?_
    exact ih hact (by rw [hin, hpc, hrest]) (by rw [hin, hpc]; simpa [Nat.add_assoc, Nat.add_comm 3] using hlen)
  | case2 a b =>
    have hk : ([a, b].length + 2) / 3 + 1 = 2 := by simp
    rw [hk, encodeSeq]
    exact respondsIn_last_group ha (selectEncode_two hl) (exec_pack2 a b s) hlen
  | case3 a =>
    have hk : ([a].length + 2) / 3 + 1 = 2 := by simp
    rw [hk, encodeSeq]
    exact respondsIn_last_group ha (selectEncode_one hl) (exec_pack1 a s) hlen
  | case4 =>
    have hk : (([] : List Byte).length + 2) / 3 + 1 = 1 := by simp
    rw [hk, encodeSeq, List.append_nil]
    exact respondsIn_one (step_encoding_end ha hlen)

/-- A whole ENCODE of an input that passes the guard (R121, R122). -/
theorem respondsIn_encode {s : State} {r : Request} {rest : List Request} {bs : List Byte} (hs : s.Idle)
    (hr : s.requests = r :: rest) (hdec : decodeRequest r = .encodeBytes bs) (hlen : bs.length ≤ 2147483647) :
    RespondsIn ((bs.length + 2) / 3 + 2) s (completed (.packedValues (encodeSeq bs))) := by
  have hguard : exceedsI32 bs.length = false := by simpa [exceedsI32] using hlen
  have hexec : exec (decodeRequest r) s = .next (beginEncode bs s) := by
    simp only [hdec, exec, execEncode, hguard, Bool.false_eq_true, if_false]
  exact respondsIn_succ (step_idle_of_request hs.1 hr hexec) rfl rfl (respondsIn_encoding bs rfl rfl)

/-- An input above the guard's limit is refused in one step (R121). -/
theorem respondsIn_encode_refused {s : State} {r : Request} {rest : List Request} {bs : List Byte} (hs : s.Idle)
    (hr : s.requests = r :: rest) (hdec : decodeRequest r = .encodeBytes bs) (hlen : 2147483647 < bs.length) :
    RespondsIn 1 s (faulty .rangeExceeded) := by
  have hguard : exceedsI32 bs.length = true := by simpa [exceedsI32] using hlen
  have hexec : exec (decodeRequest r) s = .next (raise .rangeExceeded s) := by
    simp only [hdec, exec, execEncode, hguard, if_true]
  exact respondsIn_one (step_idle_of_request hs.1 hr hexec)

theorem answers_encode {bs : List Byte} (hlen : bs.length ≤ 2147483647) :
    Answers (encodeRequest bs) (completed (.packedValues (encodeSeq bs))) :=
  answers_of_respondsIn _ fun _ _ hs hr => respondsIn_encode hs hr rfl hlen

theorem answers_encode_refused {bs : List Byte} (hlen : 2147483647 < bs.length) :
    Answers (encodeRequest bs) (faulty .rangeExceeded) :=
  answers_of_respondsIn _ fun _ _ hs hr => respondsIn_encode_refused hs hr rfl hlen

/-- ENCODE answers values only to an input that passes the guard, and then those of the closed form. -/
theorem answers_encode_iff {bs : List Byte} {vs : List PackedValue} :
    Answers (encodeRequest bs) (completed (.packedValues vs)) ↔ bs.length ≤ 2147483647 ∧ vs = encodeSeq bs := by
  constructor
  · intro h
    by_cases hlen : bs.length ≤ 2147483647
    · have := answers_unique h (answers_encode hlen)
      simp only [completed, Response.mk.injEq, Option.some.injEq, Result.packedValues.injEq, true_and] at this
      exact ⟨hlen, this⟩
    · cases answers_unique h (answers_encode_refused (by omega))
  · rintro ⟨hlen, rfl⟩
    exact answers_encode hlen

/-! ### DECODE from request to response (43_unpacking_decoder.md R140 to R142) -/

theorem exec_unpack_of_bytesOf {v : PackedValue} {bs : List Byte} (h : bytesOf v = some bs) (s : State) :
    exec (.unpack v) s = .next (yieldBytes bs s) := by
  simp only [exec, execUnpack, unpack_eq_ok_iff.mpr h]

theorem step_decoding_end {s : State} (ha : s.activity = .decoding) (hend : s.mem.inValues.length ≤ s.pc) :
    step s = .next (respond (completed (.bytes s.mem.outBytes)) s) := by
  rw [step_finish (by simp only [select, ha, selectDecode_at_end hend])]
  simp only [finish, ha]
  rfl

/-- A step inside DECODE with an element left is UNPACK of it. -/
theorem step_decoding_element {s t : State} {v : PackedValue} (ha : s.activity = .decoding)
    (hv : s.mem.inValues[s.pc]? = some v) (he : exec (.unpack v) s = .next t) : step s = .next t := by
  rw [step_run (by simp only [select, ha, selectDecode_of_element hv]) he, settle_outside_encode (by simp [ha])]

/-- Inside DECODE with the values `l` left, all accepted, the block takes a step for each and one to respond with
their bytes behind those already emitted. -/
theorem respondsIn_decoding (l : List PackedValue) {s : State} {bs : List Byte} (ha : s.activity = .decoding)
    (hl : s.mem.inValues.drop s.pc = l) (hbs : decodeSeq l = some bs) :
    RespondsIn (l.length + 1) s (completed (.bytes (s.mem.outBytes ++ bs))) := by
  induction l generalizing s bs with
  | nil =>
    obtain rfl : [] = bs := Option.some.inj hbs
    rw [List.append_nil]
    exact respondsIn_one (step_decoding_end ha (List.drop_eq_nil_iff.mp hl))
  | cons v vs ih =>
    obtain ⟨out, more, hv, hmore, rfl⟩ := decodeSeq_cons_some hbs
    have hget : s.mem.inValues[s.pc]? = some v := by
      rw [← List.head?_drop, hl, List.head?_cons]
    have hrest : s.mem.inValues.drop (s.pc + 1) = vs := by rw [← List.drop_drop, hl]; rfl
    have hstep := step_decoding_element ha hget (exec_unpack_of_bytesOf hv s)
    rw [yieldBytes_eq] at hstep
    have h := respondsIn_succ hstep rfl rfl (ih ha hrest hmore)
    rwa [List.append_assoc] at h

/-- A whole DECODE of values that are all accepted (R141, R147). -/
theorem respondsIn_decode {s : State} {r : Request} {rest : List Request} {vs : List PackedValue} {bs : List Byte}
    (hs : s.Idle) (hr : s.requests = r :: rest) (hdec : decodeRequest r = .decodeValues vs)
    (hbs : decodeSeq vs = some bs) : RespondsIn (vs.length + 2) s (completed (.bytes bs)) := by
  have hexec : exec (decodeRequest r) s = .next (beginDecode vs s) := by rw [hdec]; rfl
  exact respondsIn_succ (step_idle_of_request hs.1 hr hexec) rfl rfl (respondsIn_decoding vs rfl rfl hbs)

theorem answers_decode {vs : List PackedValue} {bs : List Byte} (hbs : decodeSeq vs = some bs) :
    Answers (decodeRequestOf vs) (completed (.bytes bs)) :=
  answers_of_respondsIn _ fun _ _ hs hr => respondsIn_decode hs hr rfl hbs

/-! ### The source's own invariants (00_scope.md R12) -/

theorem roundTrips {bs : List Byte} (hlen : bs.length ≤ 2147483647) : RoundTrips bs :=
  ⟨encodeSeq bs, answers_encode hlen, answers_decode (decodeSeq_encodeSeq bs)⟩

/-- Mode determinism on the answers of ENCODE (R131). -/
theorem tagByteCount_of_answers {bs : List Byte} {vs : List PackedValue} {i : Nat} {v : PackedValue}
    (h : Answers (encodeRequest bs) (completed (.packedValues vs))) (hv : vs[i]? = some v) :
    tagByteCount (modeTag v) = some (groupByteCount bs.length i) := by
  obtain ⟨_, rfl⟩ := answers_encode_iff.mp h
  exact tagByteCount_of_encodeSeq hv

/-- Settles O59: each of the four invariants is the lemma of its section above; the round trip and mode determinism
come from the closed form of what ENCODE answers. -/
theorem sourceInvariants : Obligations.SourceInvariants := by
  unfold Obligations.SourceInvariants
  exact ⟨fun _ hlen => roundTrips hlen,
    fun _ _ _ _ _ h => writeField_isolated h,
    fun _ _ _ _ h => zeroField_isolated h,
    fun _ _ h _ _ hv => tagByteCount_of_answers h hv,
    fun _ _ h => tagByteCount_of_unpack h,
    loadBearingBound⟩

end Sys2Proof.Machine

end

section
/-! Element order and field order (20_memory.md R44): the fields of an emitted packed value, read back. -/

namespace Sys2Proof.Machine

/-- A digit group of a packed value that is the number of a byte reads as that byte. -/
theorem readField_packed_byte {v : PackedValue} {p w : FieldIndex} {x : Byte} (hd : SupportedField p w)
    (hx : readDigits v.toNat p.toNat w.toNat = x.toNat) : readField (zextPacked v) p w = .ok (zextByte x) := by
  rw [readField_packed v hd, hx, ← zextByte_toNat, BitVec.ofNat_toNat, BitVec.setWidth_eq]

/-- A packed value written from a tag and three bytes has the first byte in field A, the second in B, the third
in C (R60, R76). -/
theorem readField_packedOfDigits {t : Nat} (ht : t ≤ 2) (a b c : Byte) {v : PackedValue}
    (hv : v = packedOfDigits t a.toNat b.toNat c.toNat) :
    readField (zextPacked v) Config.aPos Config.fieldWidth = .ok (zextByte a) ∧
      readField (zextPacked v) Config.bPos Config.fieldWidth = .ok (zextByte b) ∧
      readField (zextPacked v) Config.cPos Config.fieldWidth = .ok (zextByte c) := by
  have ha := a.isLt; have hb := b.isLt; have hc := c.isLt
  have hn : v.toNat = packedNumber t a.toNat b.toNat c.toNat := by
    rw [hv, packedOfDigits, BitVec.toNat_ofNat, packedNumber]
    omega
  obtain ⟨-, hA, hB, hC⟩ : _ ∧ dec 9 7 v.toNat = a.toNat ∧ dec 6 4 v.toNat = b.toNat ∧ dec 3 1 v.toNat = c.toNat := by
    rw [hn]
    exact dec_packedNumber (by omega) (by omega) (by omega) (by omega)
  rw [dec_eq_readDigits (by decide)] at hA hB hC
  exact ⟨readField_packed_byte (by decide) hA, readField_packed_byte (by decide) hB,
    readField_packed_byte (by decide) hC⟩

/-- Settles O21: each group step appends the closed form of its bytes, whose fields hold them in input order; a pair
and a single have 0 in the fields they do not use. UNPACK gives the bytes of the closed form's class. -/
theorem firstByteInTheHighestField : Obligations.FirstByteInTheHighestField := by
  unfold Obligations.FirstByteInTheHighestField
  refine ⟨fun a b c s t h => ?pack3, fun a b s t h => ?pack2, fun a s t h => ?pack1⟩
  case pack3 =>
    obtain ⟨hA, hB, hC⟩ := readField_packedOfDigits (t := 1) (by decide) a b c (v := packed3 a b c) rfl
    rw [exec_pack3] at h
    cases h
    exact ⟨packed3 a b c, by simp, hA, hB, hC, unpack_eq_ok_iff.mpr (bytesOf_packed3 a b c)⟩
  case pack2 =>
    obtain ⟨-, hB, hC⟩ := readField_packedOfDigits (t := 2) (by decide) 0#8 a b (v := packed2 a b) rfl
    rw [exec_pack2] at h
    cases h
    exact ⟨packed2 a b, by simp, hB, hC, unpack_eq_ok_iff.mpr (bytesOf_packed2 a b)⟩
  case pack1 =>
    obtain ⟨-, -, hC⟩ := readField_packedOfDigits (t := 0) (by decide) 0#8 0#8 a (v := packed1 a) rfl
    rw [exec_pack1] at h
    cases h
    exact ⟨packed1 a, by simp, hC, unpack_eq_ok_iff.mpr (bytesOf_packed1 a)⟩

end Sys2Proof.Machine

end

section
/-! The four digit groups of a number up to 9999999999 (30_encoding.md R60). -/

namespace Sys2Proof.Machine

/-- The group at positions hi down to lo is a number of hi - lo + 1 digits (R10). -/
theorem dec_lt (hi lo v : Nat) : dec hi lo v < 10 ^ (hi - lo + 1) := Nat.mod_lt _ (Nat.pow_pos (by decide))

/-- Settles O40: the groups of a number written as `packedNumber` read back as its digits (uniqueness), and the digits
are such groups and put back together give the number (existence, where the bound on v is needed). -/
theorem digitGroupsDecomposeTheNumber : Obligations.DigitGroupsDecomposeTheNumber := by
  unfold Obligations.DigitGroupsDecomposeTheNumber
  intro v t a b c hv
  constructor
  case mp =>
    rintro ⟨ht, ha, hb, hc, hsum⟩
    obtain ⟨hT, hA, hB, hC⟩ := dec_packedNumber ht ha hb hc
    rw [show v = packedNumber t a b c from hsum]
    exact ⟨hT.symm, hA.symm, hB.symm, hC.symm⟩
  case mpr =>
    rintro ⟨rfl, rfl, rfl, rfl⟩
    exact ⟨Nat.le_of_lt_succ (dec_lt 10 10 v), Nat.le_of_lt_succ (dec_lt 9 7 v), Nat.le_of_lt_succ (dec_lt 6 4 v),
      Nat.le_of_lt_succ (dec_lt 3 1 v), (packedNumber_dec (Nat.lt_succ_of_le hv)).symm⟩

end Sys2Proof.Machine

end

section
/-! The operations of the digit field multiplexer from request to response (40_digit_field_mux.md R91 to R93, R97, R98),
and beside them the response of every other request, which is never `OVERFLOW_ERROR`. -/

namespace Sys2Proof.Machine

/-! ### The three operations as instructions -/

/-- The response that a digit-field result stands for (R25, R170). -/
def fieldResponse (result : WorkingValue → Result) : Except Status WorkingValue → Response
  | .ok v => completed (result v)
  | .error st => faulty st

@[simp] theorem fieldResponse_ok (result : WorkingValue → Result) (v : WorkingValue) :
    fieldResponse result (.ok v) = completed (result v) := rfl

@[simp] theorem fieldResponse_error (result : WorkingValue → Result) (st : Status) :
    fieldResponse result (.error st) = faulty st := rfl

theorem answer_eq_respond (result : WorkingValue → Result) (r : Except Status WorkingValue) (s : State) :
    answer result r s = respond (fieldResponse result r) s := by
  cases r <;> rfl

theorem exec_readField (v : WorkingValue) (p w : FieldIndex) (s : State) :
    exec (.readField v p w) s = .next (respond (fieldResponse .digitGroup (readField v p w)) s) :=
  congrArg Host.Outcome.next (answer_eq_respond _ _ s)

theorem exec_zeroField (v : WorkingValue) (p w : FieldIndex) (s : State) :
    exec (.zeroField v p w) s = .next (respond (fieldResponse .value (zeroField v p w)) s) :=
  congrArg Host.Outcome.next (answer_eq_respond _ _ s)

theorem exec_writeField (v x : WorkingValue) (p w : FieldIndex) (s : State) :
    exec (.writeField v x p w) s = .next (respond (fieldResponse .value (writeField v x p w)) s) :=
  congrArg Host.Outcome.next (answer_eq_respond _ _ s)

/-- A cleared value and its digit group put back together are the operand (R92). -/
theorem zeroDigits_add_field (v p w : Nat) : zeroDigits v p w + readDigits v p w * 10 ^ (p - w) = v :=
  Nat.sub_add_cancel (readDigits_mul_le v p w)

/-! ### WRITE_FIELD, check by check (R93, R167) -/

theorem writeField_of_unsupported (v x : WorkingValue) {p w : FieldIndex} (hd : ¬SupportedField p w) :
    writeField v x p w = .error .domainError := by
  rcases writeField_cases v x p w with ⟨_, e⟩ | ⟨hd', _⟩ | ⟨hd', _⟩ | ⟨hd', _⟩
  · exact e
  all_goals exact absurd hd' hd

theorem writeField_of_too_many_digits (v : WorkingValue) {x : WorkingValue} {p w : FieldIndex}
    (hd : SupportedField p w) (hx : 10 ^ w.toNat ≤ x.toNat) : writeField v x p w = .error .overflowError := by
  rcases writeField_cases v x p w with ⟨hd', _⟩ | ⟨_, _, e⟩ | ⟨_, hx', _⟩ | ⟨_, hx', _⟩
  · exact absurd hd hd'
  · exact e
  all_goals omega

theorem writeField_of_too_large {v x : WorkingValue} {p w : FieldIndex} (hd : SupportedField p w)
    (hx : x.toNat < 10 ^ w.toNat) (hr : 2 ^ 64 ≤ writeDigits v.toNat x.toNat p.toNat w.toNat) :
    writeField v x p w = .error .workingOverflow := by
  rcases writeField_cases v x p w with ⟨hd', _⟩ | ⟨_, hx', _⟩ | ⟨_, _, _, e⟩ | ⟨_, _, r, _, hr'⟩
  · exact absurd hd hd'
  · omega
  · exact e
  · have := r.isLt; omega

/-- The criterion of `OVERFLOW_ERROR` (R97), the domain being tested first. -/
theorem writeField_overflow_iff (v x : WorkingValue) (p w : FieldIndex) :
    writeField v x p w = .error .overflowError ↔ SupportedField p w ∧ 10 ^ w.toNat ≤ x.toNat := by
  refine ⟨fun h => ?_, fun ⟨hd, hx⟩ => writeField_of_too_many_digits v hd hx⟩
  rcases writeField_cases v x p w with ⟨_, e⟩ | ⟨hd, hx, _⟩ | ⟨_, _, _, e⟩ | ⟨_, _, _, e, _⟩
  case inr.inl => exact ⟨hd, hx⟩
  all_goals rw [e] at h; cases h

/-! ### The obligations on one operation -/

/-- Settles O3: READ_FIELD computes `readDigits` without truncation, which is the digit range of the field. -/
theorem readFieldAnswersTheDigitGroup : Obligations.ReadFieldAnswersTheDigitGroup := by
  unfold Obligations.ReadFieldAnswersTheDigitGroup
  intro v p w s
  rw [exec_readField]
  constructor
  · intro hd
    obtain ⟨g, hg, hgn⟩ := readField_of_supported v hd
    have hlt : g.toNat < 10 ^ w.toNat := hgn ▸ readDigits_lt _ _ _
    exact ⟨g, hgn, hgn.trans (dec_field_eq_readDigits hd _).symm, hlt, by rw [hg, fieldResponse_ok]⟩
  · intro hd
    rw [readField_of_unsupported v hd, fieldResponse_error]

/-- Settles O4: ZERO_FIELD computes `zeroDigits` without truncation, which the digit group completes to the operand. -/
theorem zeroFieldAnswersTheClearedValue : Obligations.ZeroFieldAnswersTheClearedValue := by
  unfold Obligations.ZeroFieldAnswersTheClearedValue
  intro v p w s
  rw [exec_zeroField]
  constructor
  · intro hd
    obtain ⟨z, hz, hzn⟩ := zeroField_of_supported v hd
    refine ⟨z, ?_, ?_, by rw [hz, fieldResponse_ok]⟩ <;> rw [hzn]
    · exact zeroDigits_add_field _ _ _
    · exact zeroDigits_le _ _ _
  · intro hd
    rw [zeroField_of_unsupported v hd, fieldResponse_error]

/-- Settles O5: one lemma for each check of WRITE_FIELD; the sum that the third check bounds is `writeDigits`, on the
`z` that ZERO_FIELD gives. -/
theorem writeFieldAnswersTheReplacedValue : Obligations.WriteFieldAnswersTheReplacedValue := by
  unfold Obligations.WriteFieldAnswersTheReplacedValue
  intro v x p w s
  rw [exec_writeField]
  refine ⟨fun hd => ?domain, fun hd hx => ?digits, fun hd hx => ?range⟩
  case domain => rw [writeField_of_unsupported v x hd, fieldResponse_error]
  case digits => rw [writeField_of_too_many_digits v hd hx, fieldResponse_error]
  case range =>
    obtain ⟨z, hz, hzn⟩ := zeroField_of_supported v hd
    have hsum : writeDigits v.toNat x.toNat p.toNat w.toNat = z.toNat + x.toNat * 10 ^ (p.toNat - w.toNat) := by
      rw [writeDigits, hzn]
    refine ⟨z, hz, ?_⟩
    rw [← hsum]
    refine ⟨fun hlarge => ?_, fun hfits => ?_⟩
    · rw [writeField_of_too_large hd hx (by omega), fieldResponse_error]
    · have hlt : writeDigits v.toNat x.toNat p.toNat w.toNat < 2 ^ 64 := by omega
      exact ⟨BitVec.ofNat 64 _, by rw [BitVec.toNat_ofNat, Nat.mod_eq_of_lt hlt],
        by rw [writeField_of_fits hd hx rfl hlt, fieldResponse_ok]⟩

/-- Settles O6: both operations replace one digit group, ZERO_FIELD by 0, and that is an isolated change. -/
theorem fieldIsolation : Obligations.FieldIsolation := by
  unfold Obligations.FieldIsolation
  exact ⟨fun _ _ _ _ _ h => writeField_isolated h, fun _ _ _ _ h => zeroField_isolated h⟩

/-! ### The response of every request -/

/-- An operation that responds in the step that runs it answers its request. -/
theorem answers_of_exec {r : Request} {resp : Response}
    (h : ∀ s : State, exec (decodeRequest r) s = .next (respond resp s)) : Answers r resp :=
  answers_of_respondsIn 1 fun s _ hs hr => respondsIn_one (step_idle_of_request hs.1 hr (h s))

theorem exec_unpack_of_illegal {v : PackedValue} (h : bytesOf v = none) (s : State) :
    exec (.unpack v) s = .next (respond (faulty .invalidPackedValue) s) := by
  have hu : unpack v = .error .invalidPackedValue := by rw [unpack_eq_bytesOf, h]
  simp only [exec, execUnpack, hu]
  rfl

/-- A sequence that does not decode has a first illegal value, and what stands before it decodes. -/
theorem exists_illegal_of_decodeSeq_none {vs : List PackedValue} (h : decodeSeq vs = none) :
    ∃ good bad rest, vs = good ++ bad :: rest ∧ (∀ u ∈ good, bytesOf u ≠ none) ∧ bytesOf bad = none := by
  induction vs with
  | nil => cases h
  | cons v vs ih =>
    cases hv : bytesOf v with
    | none => exact ⟨[], v, vs, rfl, by simp, hv⟩
    | some bs =>
      have hvs : decodeSeq vs = none := by
        cases hmore : decodeSeq vs with
        | none => rfl
        | some more => rw [decodeSeq_cons_of_some hv hmore] at h; cases h
      obtain ⟨good, bad, rest, rfl, hgood, hbad⟩ := ih hvs
      exact ⟨v :: good, bad, rest, rfl, by simpa [hv] using hgood, hbad⟩

/-- Inside DECODE, a step for each legal value left and one for the first illegal one, which responds (R146). -/
theorem respondsIn_decoding_illegal (good : List PackedValue) {s : State} {bad : PackedValue}
    {rest : List PackedValue} (ha : s.activity = .decoding) (hl : s.mem.inValues.drop s.pc = good ++ bad :: rest)
    (hgood : ∀ u ∈ good, bytesOf u ≠ none) (hbad : bytesOf bad = none) :
    RespondsIn (good.length + 1) s (faulty .invalidPackedValue) := by
  induction good generalizing s with
  | nil =>
    have hget : s.mem.inValues[s.pc]? = some bad := by rw [← List.head?_drop, hl]; rfl
    exact respondsIn_one (step_decoding_element ha hget (exec_unpack_of_illegal hbad s))
  | cons v vs ih =>
    obtain ⟨hv, hvs⟩ := List.forall_mem_cons.mp hgood
    obtain ⟨bs, hbs⟩ := Option.ne_none_iff_exists'.mp hv
    have hget : s.mem.inValues[s.pc]? = some v := by rw [← List.head?_drop, hl]; rfl
    have hrest : s.mem.inValues.drop (s.pc + 1) = vs ++ bad :: rest := by rw [← List.drop_drop, hl]; rfl
    have hstep := step_decoding_element ha hget (exec_unpack_of_bytesOf hbs s)
    rw [yieldBytes_eq] at hstep
    exact respondsIn_succ hstep rfl rfl (ih ha hrest hvs)

/-- A whole DECODE of values that are not all legal. -/
theorem answers_decode_illegal {r : Request} {vs : List PackedValue} (hdec : decodeRequest r = .decodeValues vs)
    (h : decodeSeq vs = none) : Answers r (faulty .invalidPackedValue) := by
  obtain ⟨good, bad, rest, rfl, hgood, hbad⟩ := exists_illegal_of_decodeSeq_none h
  refine answers_of_respondsIn (good.length + 2) fun s _ hs hr => ?_
  have hexec : exec (decodeRequest r) s = .next (beginDecode (good ++ bad :: rest) s) := by rw [hdec]; rfl
  exact respondsIn_succ (step_idle_of_request hs.1 hr hexec) rfl rfl
    (respondsIn_decoding_illegal good rfl rfl hgood hbad)

/-! `response` writes the digit-field operations out in arithmetic -/

theorem response_of_readField {r : Request} {v : WorkingValue} {p w : FieldIndex}
    (h : decodeRequest r = .readField v p w) : response r = fieldResponse .digitGroup (readField v p w) := by
  simp only [response, h]
  split_ifs with hd
  · rw [readField, if_pos ((inFieldDomain_iff p w).mpr hd)]
    rfl
  · rw [readField_of_unsupported v hd, fieldResponse_error]

theorem response_of_zeroField {r : Request} {v : WorkingValue} {p w : FieldIndex}
    (h : decodeRequest r = .zeroField v p w) : response r = fieldResponse .value (zeroField v p w) := by
  simp only [response, h]
  split_ifs with hd
  · rw [zeroField, if_pos ((inFieldDomain_iff p w).mpr hd)]
    rfl
  · rw [zeroField_of_unsupported v hd, fieldResponse_error]

theorem response_of_writeField {r : Request} {v x : WorkingValue} {p w : FieldIndex}
    (h : decodeRequest r = .writeField v x p w) : response r = fieldResponse .value (writeField v x p w) := by
  simp only [response, h]
  split_ifs with hd hx hr
  · rw [writeField_of_too_many_digits v hd hx, fieldResponse_error]
  · rw [writeField_of_too_large hd (Nat.not_le.mp hx) hr, fieldResponse_error]
  · rw [writeField_of_fits hd (Nat.not_le.mp hx) rfl (Nat.not_le.mp hr), fieldResponse_ok]
    rfl
  · rw [writeField_of_unsupported v x hd, fieldResponse_error]

/-- Every request is answered, with the response that the pure function gives of it (R20, R180). -/
theorem answers_response (r : Request) : Answers r (response r) := by
  have hformat := decodeRequest_format r
  cases hi : decodeRequest r with
  | readField v p w =>
    exact answers_of_exec fun s => by rw [response_of_readField hi, hi, exec_readField]
  | zeroField v p w =>
    exact answers_of_exec fun s => by rw [response_of_zeroField hi, hi, exec_zeroField]
  | writeField v x p w =>
    exact answers_of_exec fun s => by rw [response_of_writeField hi, hi, exec_writeField]
  | exceedsI32 n =>
    refine answers_of_exec fun s => ?_
    simp only [response, hi]
    rfl
  | encodeBytes bs =>
    by_cases hlen : 2147483647 < bs.length
    · simp only [response, hi, if_pos hlen]
      exact answers_of_respondsIn _ fun _ _ hs hr => respondsIn_encode_refused hs hr hi hlen
    · simp only [response, hi, if_neg hlen]
      exact answers_of_respondsIn _ fun _ _ hs hr => respondsIn_encode hs hr hi (Nat.not_lt.mp hlen)
  | decodeValues vs =>
    cases hbs : decodeSeq vs with
    | some bs =>
      simp only [response, hi, hbs]
      exact answers_of_respondsIn _ fun _ _ hs hr => respondsIn_decode hs hr hi hbs
    | none =>
      simp only [response, hi, hbs]
      exact answers_decode_illegal hi hbs
  | reserved low =>
    refine answers_of_exec fun s => ?_
    simp only [response, hi]
    rfl
  | pack3 | pack1 | pack2 | unpack | pv3 | pv2 | pv1 | pvFieldTooLarge | pvNegative =>
    rw [hi] at hformat
    cases hformat

/-! ### OVERFLOW_ERROR (R97) -/

@[simp] theorem completed_status (res : Result) : (completed res).status = .ok := rfl
@[simp] theorem faulty_status (st : Status) : (faulty st).status = st := rfl

/-- A digit-field operation ends with a fault exactly when its function raised that fault. -/
theorem fieldResponse_status_iff {result : WorkingValue → Result} {x : Except Status WorkingValue} {st : Status}
    (hst : st ≠ .ok) : (fieldResponse result x).status = st ↔ x = .error st := by
  cases x with
  | ok v => simpa using hst.symm
  | error st' => simp

/-- Only a WRITE_FIELD ends with it. -/
theorem writeField_of_response_overflow {r : Request} (h : (response r).status = .overflowError) :
    ∃ v x p w, decodeRequest r = .writeField v x p w := by
  cases hi : decodeRequest r with
  | writeField v x p w => exact ⟨v, x, p, w, rfl⟩
  | readField | zeroField | encodeBytes | decodeValues =>
    simp only [response, hi] at h
    split at h <;> cases h
  | exceedsI32 | reserved | pack3 | pack1 | pack2 | unpack | pv3 | pv2 | pv1 | pvFieldTooLarge | pvNegative =>
    simp only [response, hi] at h
    cases h

/-- A WRITE_FIELD ends with it exactly for digits too many in a supported field. -/
theorem response_overflow_iff {r : Request} {v x : WorkingValue} {p w : FieldIndex}
    (h : decodeRequest r = .writeField v x p w) :
    (response r).status = .overflowError ↔ SupportedField p w ∧ 10 ^ w.toNat ≤ x.toNat := by
  rw [response_of_writeField h, fieldResponse_status_iff (by decide), writeField_overflow_iff]

/-- Settles O12: a request has the one response `response r`, only a WRITE_FIELD can end with `OVERFLOW_ERROR`, and
its own criterion is R97's. -/
theorem overflowErrorCriterion : Obligations.OverflowErrorCriterion := by
  unfold Obligations.OverflowErrorCriterion
  intro r resp h
  obtain rfl : resp = response r := answers_unique h (answers_response r)
  constructor
  · intro hst
    obtain ⟨v, x, p, w, hi⟩ := writeField_of_response_overflow hst
    exact ⟨v, x, p, w, hi, (response_overflow_iff hi).mp hst⟩
  · rintro ⟨v, x, p, w, hi, hcriterion⟩
    exact (response_overflow_iff hi).mpr hcriterion

end Sys2Proof.Machine

end

section
/-! The range guard (41_range_guard.md R110, R111): EXCEEDS_I32 as an instruction, and its answer beside the answers of
ENCODE, which applies the guard (R121), and of DECODE, which does not (decision D12). -/

namespace Sys2Proof.Machine

/-! ### EXCEEDS_I32 as an instruction -/

theorem exec_exceedsI32 (n : WorkingValue) (s : State) :
    exec (.exceedsI32 n) s = .next (respond (completed (.bool (exceedsI32 n.toNat))) s) := rfl

theorem exceedsI32_eq_true_iff (n : Nat) : exceedsI32 n = true ↔ 2147483647 < n := decide_eq_true_iff

theorem exceedsI32_eq_false_iff (n : Nat) : exceedsI32 n = false ↔ n ≤ 2147483647 :=
  decide_eq_false_iff_not.trans Nat.not_lt

/-- Settles O13: EXCEEDS_I32 responds with its comparison, which is decided on either side of the bound. -/
theorem exceedsI32Compares : Obligations.ExceedsI32Compares := by
  unfold Obligations.ExceedsI32Compares
  intro n s
  rw [exec_exceedsI32]
  constructor
  · intro hle
    rw [(exceedsI32_eq_false_iff _).mpr hle]
  · intro hlt
    rw [(exceedsI32_eq_true_iff _).mpr hlt]

/-! ### The guard and the batch operations, from request to response -/

/-- A request has exactly one response, the one the pure function gives (R20, R180). -/
theorem answers_iff {r : Request} {resp : Response} : Answers r resp ↔ resp = response r :=
  ⟨fun h => answers_unique h (answers_response r), fun h => h ▸ answers_response r⟩

theorem response_exceedsI32 (n : WorkingValue) :
    response { op := 3#3, n := n } = completed (.bool (decide (2147483647 < n.toNat))) := rfl

theorem answers_exceedsI32_iff {n : WorkingValue} {b : Bool} :
    Answers { op := 3#3, n := n } (completed (.bool b)) ↔ b = decide (2147483647 < n.toNat) := by
  rw [answers_iff, response_exceedsI32]
  simp only [completed, Response.mk.injEq, Option.some.injEq, Result.bool.injEq, true_and]

/-- ENCODE raises `RANGE_EXCEEDED` for exactly the inputs the guard stops (R121, decision D8). -/
theorem answers_encode_refused_iff {bs : List Byte} :
    Answers (encodeRequest bs) (faulty .rangeExceeded) ↔ 2147483647 < bs.length := by
  refine ⟨fun h => ?_, answers_encode_refused⟩
  by_contra hlen
  cases answers_unique h (answers_encode (Nat.not_lt.mp hlen))

/-- DECODE delivers bytes or stops at an illegal value: it has no limit on its length (decision D12). -/
theorem response_decodeRequestOf_status (vs : List PackedValue) :
    (response (decodeRequestOf vs)).status = .ok ∨
      (response (decodeRequestOf vs)).status = .invalidPackedValue := by
  have hi : decodeRequest (decodeRequestOf vs) = .decodeValues vs := rfl
  simp only [response, hi]
  cases decodeSeq vs with
  | some bs => exact .inl rfl
  | none => exact .inr rfl

/-- Settles O14: the guard's answer and the refusal of ENCODE are the same comparison of the length, below which ENCODE
answers its closed form; the status of every other answer is read off the one response a request has. -/
theorem guardBoundsTheByteCount : Obligations.GuardBoundsTheByteCount := by
  unfold Obligations.GuardBoundsTheByteCount
  refine ⟨fun bs n hn => ?_, fun bs n hn h => ?_, fun vs resp h => ?_, fun n resp h => ?_⟩
  · rw [answers_exceedsI32_iff, answers_encode_refused_iff, hn, eq_comm, decide_eq_true_iff]
  · have hlen : ¬2147483647 < bs.length := by
      rw [← hn]
      exact of_decide_eq_false (answers_exceedsI32_iff.mp h).symm
    exact ⟨encodeSeq bs, answers_encode (Nat.not_lt.mp hlen)⟩
  · obtain rfl := answers_iff.mp h
    rcases response_decodeRequestOf_status vs with hst | hst <;> rw [hst] <;> decide
  · rw [answers_iff.mp h, response_exceedsI32, completed_status]

end Sys2Proof.Machine

end

section
/-! The packing encoder (42_packing_encoder.md): the number each group step puts into `W` and emits (R123 to R125),
which bytes the i-th emitted value comes from (R127), and the size of its group as its tag says it (R131). -/

namespace Sys2Proof.Machine

/-! ### The group steps -/

/-- A packed value of at most `I32_MAX` stands for the same number signed and unsigned (R45, R70). -/
theorem toInt_eq_toNat_of_le {v : PackedValue} (h : v.toNat ≤ 2147483647) : v.toInt = v.toNat :=
  BitVec.toInt_eq_toNat_of_lt (by omega)

theorem packed3_toNat_le (a b c : Byte) : (packed3 a b c).toNat ≤ 2147483647 := by
  have ha := a.isLt; have hb := b.isLt; have hc := c.isLt
  rw [packed3_toNat]
  omega

theorem packed2_toNat_le (a b : Byte) : (packed2 a b).toNat ≤ 2147483647 := by
  have ha := a.isLt; have hb := b.isLt
  rw [packed2_toNat]
  omega

theorem packed1_toNat_le (a : Byte) : (packed1 a).toNat ≤ 2147483647 := by
  have ha := a.isLt
  rw [packed1_toNat]
  omega

theorem packed3_toInt (a b c : Byte) :
    (packed3 a b c).toInt = 10 ^ 9 + a.toNat * 10 ^ 6 + b.toNat * 10 ^ 3 + c.toNat := by
  rw [toInt_eq_toNat_of_le (packed3_toNat_le a b c), packed3_toNat]
  push_cast
  rfl

theorem packed2_toInt (a b : Byte) : (packed2 a b).toInt = 2 * 10 ^ 9 + a.toNat * 10 ^ 3 + b.toNat := by
  rw [toInt_eq_toNat_of_le (packed2_toNat_le a b), packed2_toNat]
  push_cast
  rfl

theorem packed1_toInt (a : Byte) : (packed1 a).toInt = a.toNat := by
  rw [toInt_eq_toNat_of_le (packed1_toNat_le a), packed1_toNat]

theorem packedNumber_eq_packed3_toNat (a b c : Byte) :
    packedNumber 1 a.toNat b.toNat c.toNat = (packed3 a b c).toNat := by
  rw [packed3_toNat, packedNumber, Nat.one_mul]

theorem packedNumber_eq_packed2_toNat (a b : Byte) : packedNumber 2 0 a.toNat b.toNat = (packed2 a b).toNat := by
  rw [packed2_toNat, packedNumber, Nat.zero_mul, Nat.add_zero]

/-- A group step that leaves one number in `W` and in the value it emits: that number, signed too, with the frame
(R122). -/
theorem exec_emits_number {i : Instr} {n k : Nat} {v : PackedValue} {s : State} (hn : n = v.toNat)
    (hv : v.toNat ≤ 2147483647) (he : exec i s = .next (groupEmitted (BitVec.ofNat 64 n) v k s)) :
    ∃ (W : WorkingValue) (u : PackedValue), W.toNat = v.toNat ∧ u.toInt = W.toNat ∧
      exec i s = .next { s with w := W, pc := s.pc + k, oc := s.oc + 1,
                                mem := { s.mem with outValues := s.mem.outValues ++ [u] } } := by
  have hW : (BitVec.ofNat 64 n).toNat = v.toNat := by
    rw [BitVec.toNat_ofNat]
    omega
  exact ⟨BitVec.ofNat 64 n, v, hW, by rw [hW, toInt_eq_toNat_of_le hv], he⟩

/-- Settles O17: PACK3's field writes give the closed form, which is small enough to be emitted as the same number. -/
theorem pack3EmitsATriple : Obligations.Pack3EmitsATriple := by
  unfold Obligations.Pack3EmitsATriple
  intro a b c s
  rw [← packed3_toNat]
  exact exec_emits_number (packedNumber_eq_packed3_toNat a b c) (packed3_toNat_le a b c) (exec_pack3 a b c s)

/-- Settles O18: PACK1's field writes leave the byte alone, with the tag cleared. -/
theorem pack1EmitsTheByte : Obligations.Pack1EmitsTheByte := by
  unfold Obligations.Pack1EmitsTheByte
  intro a s
  rw [← packed1_toNat]
  exact exec_emits_number (packed1_toNat a).symm (packed1_toNat_le a) (exec_pack1 a s)

/-- Settles O19: PACK2's field writes give the closed form, the tag now 2, still small enough to be emitted as the same
number. -/
theorem pack2EmitsAPair : Obligations.Pack2EmitsAPair := by
  unfold Obligations.Pack2EmitsAPair
  intro a b s
  rw [← packed2_toNat]
  exact exec_emits_number (packedNumber_eq_packed2_toNat a b) (packed2_toNat_le a b) (exec_pack2 a b s)

/-! ### Which bytes the i-th value comes from -/

theorem encodeSeq_drop_three (bs : List Byte) : encodeSeq (bs.drop 3) = (encodeSeq bs).drop 1 := by
  match bs with
  | [] | [_] | [_, _] | _ :: _ :: _ :: _ => rfl

/-- The values from index i on are those of the bytes from index 3i on. -/
theorem encodeSeq_drop (bs : List Byte) (i : Nat) : encodeSeq (bs.drop (3 * i)) = (encodeSeq bs).drop i := by
  induction i with
  | zero => rfl
  | succ i ih => rw [Nat.mul_succ, ← List.drop_drop, encodeSeq_drop_three, ih, List.drop_drop]

theorem encodeSeq_getElem?_of_drop {bs : List Byte} {i : Nat} {v : PackedValue} {vs : List PackedValue}
    (h : encodeSeq (bs.drop (3 * i)) = v :: vs) : (encodeSeq bs)[i]? = some v := by
  rw [← List.head?_drop, ← encodeSeq_drop, h, List.head?_cons]

theorem drop_eq_cons_of_getElem? {bs : List Byte} {i : Nat} {a : Byte} (h : bs[i]? = some a) :
    bs.drop i = a :: bs.drop (i + 1) := by
  obtain ⟨hi, rfl⟩ := List.getElem?_eq_some_iff.mp h
  exact List.drop_eq_getElem_cons hi

/-- A full group of the input is a triple of the output. -/
theorem encodeSeq_getElem?_triple {bs : List Byte} {i : Nat} {a b c : Byte} (ha : bs[3 * i]? = some a)
    (hb : bs[3 * i + 1]? = some b) (hc : bs[3 * i + 2]? = some c) : (encodeSeq bs)[i]? = some (packed3 a b c) := by
  refine encodeSeq_getElem?_of_drop (vs := encodeSeq (bs.drop (3 * i + 3))) ?_
  rw [drop_eq_cons_of_getElem? ha, drop_eq_cons_of_getElem? hb, drop_eq_cons_of_getElem? hc, encodeSeq]

/-- A last group of two bytes is a pair of the output. -/
theorem encodeSeq_getElem?_pair {bs : List Byte} {i : Nat} {a b : Byte} (hlen : bs.length = 3 * i + 2)
    (ha : bs[3 * i]? = some a) (hb : bs[3 * i + 1]? = some b) : (encodeSeq bs)[i]? = some (packed2 a b) := by
  refine encodeSeq_getElem?_of_drop (vs := []) ?_
  rw [drop_eq_cons_of_getElem? ha, drop_eq_cons_of_getElem? hb, List.drop_of_length_le hlen.le, encodeSeq]

/-- A last group of one byte is that byte. -/
theorem encodeSeq_getElem?_single {bs : List Byte} {i : Nat} {a : Byte} (hlen : bs.length = 3 * i + 1)
    (ha : bs[3 * i]? = some a) : (encodeSeq bs)[i]? = some (packed1 a) := by
  refine encodeSeq_getElem?_of_drop (vs := []) ?_
  rw [drop_eq_cons_of_getElem? ha, List.drop_of_length_le hlen.le, encodeSeq]

/-- Settles O23: the values ENCODE answers are the closed form, whose i-th value is that of the bytes from 3i on; a
short group begins at three times the number of full ones. -/
theorem encodeKeepsInputOrder : Obligations.EncodeKeepsInputOrder := by
  unfold Obligations.EncodeKeepsInputOrder
  intro bs vs h
  obtain ⟨-, rfl⟩ := answers_encode_iff.mp h
  refine ⟨fun i a b c ha hb hc => ?full, fun a hn ha => ?single, fun a b hn ha hb => ?pair⟩
  case full => exact ⟨_, encodeSeq_getElem?_triple ha hb hc, packed3_toInt a b c⟩
  case single =>
    have hstart : bs.length - 1 = 3 * (bs.length / 3) := by omega
    rw [hstart] at ha
    exact ⟨_, encodeSeq_getElem?_single (by omega) ha, packed1_toInt a⟩
  case pair =>
    have hstart : bs.length - 2 = 3 * (bs.length / 3) := by omega
    have hnext : bs.length - 1 = 3 * (bs.length / 3) + 1 := by omega
    rw [hstart] at ha
    rw [hnext] at hb
    exact ⟨_, encodeSeq_getElem?_pair (by omega) ha hb, packed2_toInt a b⟩

/-! ### The mode tag and the number of bytes -/

/-- The three tags that stand for a number of bytes (R62). -/
theorem tagByteCount_eq_some {t n : Nat} (h : tagByteCount t = some n) :
    (t = 1 ∧ n = 3) ∨ (t = 2 ∧ n = 2) ∨ (t = 0 ∧ n = 1) := by
  unfold tagByteCount at h
  split at h
  next => exact .inr (.inr ⟨rfl, (Option.some.inj h).symm⟩)
  next => exact .inl ⟨rfl, (Option.some.inj h).symm⟩
  next => exact .inr (.inl ⟨rfl, (Option.some.inj h).symm⟩)
  next => cases h

/-- Settles O26: the tag read is the mode tag, and it stands for the size of the value's group, by mode determinism on
what ENCODE answers and on what UNPACK accepts. -/
theorem modeTagFixesTheByteCount : Obligations.ModeTagFixesTheByteCount := by
  unfold Obligations.ModeTagFixesTheByteCount
  refine ⟨fun bs vs h i v hv => ⟨_, readField_tag v, ?_⟩, fun v out h => ⟨_, readField_tag v, ?_⟩⟩
  · have htag := tagByteCount_eq_some (tagByteCount_of_answers h hv)
    simp only [groupByteCount, Config.group] at htag
    exact ⟨fun hi => congrArg _ (show modeTag v = 1 by omega), fun hi => congrArg _ (show modeTag v = 2 by omega),
      fun hi => congrArg _ (show modeTag v = 0 by omega)⟩
  · rcases tagByteCount_eq_some (tagByteCount_of_unpack h) with ⟨ht, hn⟩ | ⟨ht, hn⟩ | ⟨ht, hn⟩
    · exact .inl ⟨congrArg _ ht, hn⟩
    · exact .inr (.inl ⟨congrArg _ ht, hn⟩)
    · exact .inr (.inr ⟨congrArg _ ht, hn⟩)

end Sys2Proof.Machine

end

section
/-! The unpacking decoder after the packing encoder (43_unpacking_decoder.md R150): the round trip of a whole input and
of each group step. -/

namespace Sys2Proof.Machine

/-- Settles O35: an input's round trip goes through the closed form of what ENCODE answers (`decodeSeq_encodeSeq`, by
induction over its groups); UNPACK of one group is read off the class of the value that the group packs to. -/
theorem decodeUndoesEncode : Obligations.DecodeUndoesEncode := by
  unfold Obligations.DecodeUndoesEncode
  refine ⟨fun _ hlen => roundTrips hlen, fun a b c => ?triple, fun a b => ?pair, fun a => ?single⟩
  case triple => exact unpack_eq_ok_iff.mpr (bytesOf_packed3 a b c)
  case pair => exact unpack_eq_ok_iff.mpr (bytesOf_packed2 a b)
  case single => exact unpack_eq_ok_iff.mpr (bytesOf_packed1 a)

end Sys2Proof.Machine

end

section
/-! The encodings (30_encoding.md): decoding what was encoded, and encoding what was decoded. On packed values both
directions rest on the class that the four digit groups select (43_unpacking_decoder.md R148, R149). -/

namespace Sys2Proof.Machine

/-! ### The class of four digit groups -/

theorem byte_toNat_le (b : Byte) : b.toNat ≤ Config.byteMax := Nat.le_of_lt_succ b.isLt

theorem toNat_ofNat_of_le_byteMax {n : Nat} (h : n ≤ Config.byteMax) : n = (BitVec.ofNat 8 n).toNat := by
  rw [BitVec.toNat_ofNat, Nat.mod_eq_of_lt (Nat.lt_succ_of_le h)]

theorem classify_triple (a b c : Byte) : classify 1 a.toNat b.toNat c.toNat = .pv3 a b c := by
  rw [classify, if_pos ⟨rfl, byte_toNat_le a, byte_toNat_le b, byte_toNat_le c⟩]
  simp

theorem classify_pair (a : Nat) (b c : Byte) : classify 2 a b.toNat c.toNat = .pv2 a b c := by
  rw [classify, if_neg (by omega), if_pos ⟨rfl, byte_toNat_le b, byte_toNat_le c⟩]
  simp

theorem classify_single (a b : Nat) (c : Byte) : classify 0 a b c.toNat = .pv1 a b c := by
  rw [classify, if_neg (by omega), if_neg (by omega), if_pos ⟨rfl, byte_toNat_le c⟩]
  simp

theorem selectedFieldTooLarge_iff {t a b c : Nat} : selectedFieldTooLarge t a b c = true ↔
    (t = 1 ∧ 255 < a) ∨ ((t = 1 ∨ t = 2) ∧ 255 < b) ∨ 255 < c := by
  simp only [selectedFieldTooLarge, Config.byteMax, Bool.or_eq_true, Bool.and_eq_true, beq_iff_eq, decide_eq_true_eq,
    gt_iff_lt, or_assoc]

/-- Everything `classify` can answer: an accepted class, or the class of a selected field above 255. -/
theorem classify_cases {t : Nat} (ht : t ≤ 2) (a b c : Nat) :
    (t = 1 ∧ ∃ x y z : Byte, a = x.toNat ∧ b = y.toNat ∧ c = z.toNat ∧ classify t a b c = .pv3 x y z) ∨
    (t = 2 ∧ ∃ y z : Byte, b = y.toNat ∧ c = z.toNat ∧ classify t a b c = .pv2 a y z) ∨
    (t = 0 ∧ ∃ z : Byte, c = z.toNat ∧ classify t a b c = .pv1 a b z) ∨
    (selectedFieldTooLarge t a b c = true ∧ classify t a b c = .pvFieldTooLarge t a b c) := by
  unfold classify
  split_ifs with h1 h2 h0
  · obtain ⟨ht, ha, hb, hc⟩ := h1
    exact .inl ⟨ht, _, _, _, toNat_ofNat_of_le_byteMax ha, toNat_ofNat_of_le_byteMax hb,
      toNat_ofNat_of_le_byteMax hc, rfl⟩
  · obtain ⟨ht, hb, hc⟩ := h2
    exact .inr (.inl ⟨ht, _, _, toNat_ofNat_of_le_byteMax hb, toNat_ofNat_of_le_byteMax hc, rfl⟩)
  · obtain ⟨ht, hc⟩ := h0
    exact .inr (.inr (.inl ⟨ht, _, toNat_ofNat_of_le_byteMax hc, rfl⟩))
  · refine .inr (.inr (.inr ⟨selectedFieldTooLarge_iff.mpr ?_, rfl⟩))
    simp only [Config.byteMax] at h1 h2 h0
    omega

theorem classify_of_selectedFieldTooLarge {t a b c : Nat} (ht : t ≤ 2) (h : selectedFieldTooLarge t a b c = true) :
    classify t a b c = .pvFieldTooLarge t a b c := by
  rw [selectedFieldTooLarge_iff] at h
  rcases classify_cases ht a b c with ⟨rfl, x, y, z, rfl, rfl, rfl, -⟩ | ⟨rfl, y, z, rfl, rfl, -⟩ |
    ⟨rfl, z, rfl, -⟩ | ⟨-, hclass⟩
  · have hx := x.isLt; have hy := y.isLt; have hz := z.isLt
    omega
  · have hy := y.isLt; have hz := z.isLt
    omega
  · have hz := z.isLt
    omega
  · exact hclass

/-- The class of four groups is written as the number they stand for (R60). -/
theorem encode_classify {t : Nat} (ht : t ≤ 2) (a b c : Nat) :
    encode (classify t a b c) = .digits (packedOfDigits t a b c) := by
  rcases classify_cases ht a b c with ⟨rfl, x, y, z, rfl, rfl, rfl, e⟩ | ⟨rfl, y, z, rfl, rfl, e⟩ |
    ⟨rfl, z, rfl, e⟩ | ⟨-, e⟩ <;> rw [e, encode]

/-- The class of four groups meets its row's constraints when the number is a packed value that is not negative. -/
theorem classify_wellFormed {t a b c : Nat} (ht : t ≤ 2) (ha : a ≤ 999) (hb : b ≤ 999) (hc : c ≤ 999)
    (h : packedNumber t a b c ≤ 2147483647) : (classify t a b c).wellFormed = true := by
  rcases classify_cases ht a b c with ⟨-, x, y, z, -, -, -, e⟩ | ⟨rfl, y, z, rfl, rfl, e⟩ | ⟨-, z, -, e⟩ |
    ⟨hlarge, e⟩ <;> rw [e]
  · rfl
  · rw [packedNumber] at h
    exact decide_eq_true (by omega)
  · simp [Instr.wellFormed, isDigitGroup, ha, hb]
  · simp [Instr.wellFormed, isDigitGroup, ht, ha, hb, hc, hlarge, Config.i32Max, h]

/-! ### Decode of encode -/

/-- The two reserved codes (R166). -/
theorem decodeRequest_reserved : ∀ low : BitVec 1, decodeRequest { op := 0b11#2 ++ low } = .reserved low := by decide

theorem decode_encode_pv2 {a : Nat} (ha : a ≤ 147) (b c : Byte) :
    decode (encode (.pv2 a b c)) = .ok (.pv2 a b c) := by
  have hb := b.isLt; have hc := c.isLt
  rw [encode, decode, decodePackedValue_packedOfDigits (by omega) (by omega) (by omega) (by rw [packedNumber]; omega),
    classify_pair]

theorem decode_encode_pv1 {a b : Nat} (ha : a ≤ 999) (hb : b ≤ 999) (c : Byte) :
    decode (encode (.pv1 a b c)) = .ok (.pv1 a b c) := by
  have hc := c.isLt
  rw [encode, decode, decodePackedValue_packedOfDigits ha hb (by omega) (by rw [packedNumber]; omega),
    classify_single]

theorem decode_encode_pvFieldTooLarge {t a b c : Nat} (h : (Instr.pvFieldTooLarge t a b c).wellFormed = true) :
    decode (encode (.pvFieldTooLarge t a b c)) = .ok (.pvFieldTooLarge t a b c) := by
  simp only [Instr.wellFormed, isDigitGroup, Bool.and_eq_true, decide_eq_true_eq] at h
  obtain ⟨⟨⟨⟨⟨ht, ha⟩, hb⟩, hc⟩, hlarge⟩, hnumber⟩ := h
  rw [encode, decode, decodePackedValue_packedOfDigits ha hb hc hnumber,
    classify_of_selectedFieldTooLarge ht hlarge]

/-- Settles O38: a request is read back port by port, a group byte by byte, and a packed value through its digit
groups, which select the class it was written from under the constraints of its row. -/
theorem decodeUndoesTheEncoder : Obligations.DecodeUndoesTheEncoder := by
  unfold Obligations.DecodeUndoesTheEncoder
  intro i hwf
  cases i with
  | readField | zeroField | writeField | exceedsI32 | encodeBytes | decodeValues => rfl
  | reserved low => exact congrArg Except.ok (decodeRequest_reserved low)
  | pack3 | pack1 | pack2 | unpack => rfl
  | pv3 a b c => exact congrArg Except.ok (decodePackedValue_packed3 a b c)
  | pv2 a b c => exact decode_encode_pv2 (of_decide_eq_true hwf) b c
  | pv1 a b c =>
    simp only [Instr.wellFormed, isDigitGroup, Bool.and_eq_true, decide_eq_true_eq] at hwf
    obtain ⟨ha, hb⟩ := hwf
    exact decode_encode_pv1 ha hb c
  | pvFieldTooLarge => exact decode_encode_pvFieldTooLarge hwf
  | pvNegative v => exact congrArg Except.ok (if_pos (of_decide_eq_true hwf))

/-! ### Encode of decode -/

/-- A value that is not negative, by the class of its digit groups, which put back together give it. -/
theorem decodePackedValue_of_nonnegative {v : PackedValue} (h : ¬v.toInt < 0) :
    ∃ t a b c, t ≤ 2 ∧ a ≤ 999 ∧ b ≤ 999 ∧ c ≤ 999 ∧ packedNumber t a b c = v.toNat ∧
      decodePackedValue v = classify t a b c := by
  have hv := toNat_of_nonnegative h
  refine ⟨_, _, _, _, ?_, Nat.le_of_lt_succ (dec_lt 9 7 v.toNat), Nat.le_of_lt_succ (dec_lt 6 4 v.toNat),
    Nat.le_of_lt_succ (dec_lt 3 1 v.toNat), packedNumber_dec (by omega), decodePackedValue_of_le hv⟩
  simp only [dec]
  omega

/-- Settles O39: a negative value is its own class; any other is read as groups whose class is well formed and written
as the same number. -/
theorem everyPackedValueHasOneClass : Obligations.EveryPackedValueHasOneClass := by
  unfold Obligations.EveryPackedValueHasOneClass
  intro v
  by_cases hn : v.toInt < 0
  · rw [decodePackedValue, if_pos hn]
    exact ⟨decide_eq_true hn, rfl⟩
  · obtain ⟨t, a, b, c, ht, ha, hb, hc, hv, hclass⟩ := decodePackedValue_of_nonnegative hn
    rw [hclass, encode_classify ht, packedOfDigits, hv, BitVec.ofNat_toNat, BitVec.setWidth_eq]
    exact ⟨classify_wellFormed ht ha hb hc (hv ▸ toNat_of_nonnegative hn), rfl⟩

/-! ### Select codes, written words and small values -/

/-- Settles O41: the whole code selects the row, and each row takes its own ports. -/
theorem requestsDecodeByTheirCode : Obligations.RequestsDecodeByTheirCode := by
  unfold Obligations.RequestsDecodeByTheirCode
  intro v x n p w bs vs
  have low6 : BitVec.truncate 1 6#3 = 0#1 := by decide
  have low7 : BitVec.truncate 1 7#3 = 1#1 := by decide
  exact ⟨rfl, rfl, rfl, rfl, rfl, rfl, congrArg Instr.reserved low6, congrArg Instr.reserved low7⟩

/-- Settles O42: each word evaluated. -/
theorem writtenWordsDecode : Obligations.WrittenWordsDecode := by
  unfold Obligations.WrittenWordsDecode
  decide

/-- Settles O31: a number below 10^9 has no digit at position 10. -/
theorem smallValuesHaveTagZero : Obligations.SmallValuesHaveTagZero := by
  unfold Obligations.SmallValuesHaveTagZero
  intro u hu
  obtain ⟨g, hg, hgn⟩ := readField_of_supported u (p := 10#5) (w := 1#5) (by decide)
  have hzero : readDigits u.toNat (10#5).toNat (1#5).toNat = 0 := by
    simp only [readDigits, BitVec.toNat_ofNat, Nat.reducePow, Nat.reduceMod, Nat.reduceSub]
    omega
  rw [hg, BitVec.eq_of_toNat_eq (y := 0#64) (hgn.trans hzero)]

/-- The status that a code stands for (R160): none for code 7 (decision D7). -/
def statusOfCode (c : BitVec 3) : Option Status :=
  [Status.ok, .overflowError, .rangeExceeded, .invalidPackedValue, .domainError, .workingOverflow, .illegalOp][c.toNat]?

theorem statusOfCode_code (a : Status) : statusOfCode a.code = some a := by cases a <;> rfl

/-- Settles O2: a status is recovered from its code, and code 7 stands for none. -/
theorem statusCodesAreDistinct : Obligations.StatusCodesAreDistinct := by
  unfold Obligations.StatusCodesAreDistinct
  refine ⟨rfl, rfl, rfl, rfl, rfl, rfl, rfl, fun a b h => ?distinct, fun a => ?never⟩
  case distinct => exact Option.some.inj (by rw [← statusOfCode_code a, h, statusOfCode_code])
  case never =>
    intro h
    have hnone : statusOfCode a.code = none := by rw [h]; rfl
    rw [statusOfCode_code] at hnone
    cases hnone

/-- Codes 6 and 7, and no others, select the reserved row. -/
theorem decodeRequest_reserved_iff (r : Request) :
    (∃ low, decodeRequest r = .reserved low) ↔ r.op = 6#3 ∨ r.op = 7#3 := by
  constructor
  · rintro ⟨low, h⟩
    have hop : 6 ≤ r.op.toNat := by
      unfold decodeRequest at h
      split at h
      case h_7 => simp only [imp_false] at *; omega
      all_goals cases h
    have hlt := r.op.isLt
    rcases (by omega : r.op.toNat = 6 ∨ r.op.toNat = 7) with h6 | h7
    · exact .inl (BitVec.eq_of_toNat_eq h6)
    · exact .inr (BitVec.eq_of_toNat_eq h7)
  · rintro (h | h) <;> exact ⟨_, by simp only [decodeRequest, h]; rfl⟩

/-- Settles O15: RESERVED raises its status whatever the state, and its row is that of the two codes. -/
theorem reservedCodesAreIllegal : Obligations.ReservedCodesAreIllegal := by
  unfold Obligations.ReservedCodesAreIllegal
  exact ⟨fun _ _ => rfl, fun r => (decodeRequest_reserved_iff r).symm⟩

end Sys2Proof.Machine

end

section
/-! ENCODE and DECODE on whole inputs (42_packing_encoder.md section 3, 43_unpacking_decoder.md sections 2 to 4): the
closed forms, and the answers that they are. -/

namespace Sys2Proof.Machine

/-! ### The closed form of ENCODE (R128, R132) -/

theorem encodeSeq_length (bs : List Byte) : (encodeSeq bs).length = (bs.length + 2) / 3 := by
  induction bs using encodeSeq.induct with
  | case1 a b c rest ih =>
    simp only [encodeSeq, List.length_cons, ih]
    omega
  | case2 | case3 | case4 => simp [encodeSeq]

theorem encodeSeq_append {x : List Byte} (hx : x.length % 3 = 0) (y : List Byte) :
    encodeSeq (x ++ y) = encodeSeq x ++ encodeSeq y := by
  induction x using encodeSeq.induct with
  | case1 a b c rest ih =>
    have hrest : rest.length % 3 = 0 := by
      simp only [List.length_cons] at hx
      omega
    simp only [List.cons_append, encodeSeq, ih hrest]
  | case2 | case3 => cases hx
  | case4 => rfl

theorem encodeSeq_injective {x y : List Byte} (h : encodeSeq x = encodeSeq y) : x = y := by
  have hx := decodeSeq_encodeSeq x
  rw [h, decodeSeq_encodeSeq] at hx
  exact (Option.some.inj hx).symm

/-- Settles O24: each clause is the fact about the closed form, which is what ENCODE answers. -/
theorem encodeLengthAndInjectivity : Obligations.EncodeLengthAndInjectivity := by
  unfold Obligations.EncodeLengthAndInjectivity
  refine ⟨fun bs vs h => ?length, answers_encode (Nat.zero_le _), fun x y vx vy vxy hx h₁ h₂ h₁₂ => ?append,
    fun x y vs h₁ h₂ => ?injective⟩
  case length =>
    obtain ⟨-, rfl⟩ := answers_encode_iff.mp h
    exact encodeSeq_length bs
  case append =>
    obtain ⟨-, rfl⟩ := answers_encode_iff.mp h₁
    obtain ⟨-, rfl⟩ := answers_encode_iff.mp h₂
    obtain ⟨-, rfl⟩ := answers_encode_iff.mp h₁₂
    exact encodeSeq_append hx y
  case injective =>
    obtain ⟨-, rfl⟩ := answers_encode_iff.mp h₁
    obtain ⟨-, h⟩ := answers_encode_iff.mp h₂
    exact encodeSeq_injective h

/-! ### The canonical values (30_encoding.md R63 to R66) -/

/-- The canonical values are the closed forms of the group steps. -/
theorem canonical_iff (v : PackedValue) :
    Canonical v ↔ (∃ a b c, v = packed3 a b c) ∨ (∃ a b, v = packed2 a b) ∨ ∃ a, v = packed1 a := by
  constructor
  · rintro (⟨a, b, c, h⟩ | ⟨a, b, h⟩ | h)
    · exact .inl ⟨a, b, c, BitVec.eq_of_toNat_eq (h.trans (packed3_toNat a b c).symm)⟩
    · exact .inr (.inl ⟨a, b, BitVec.eq_of_toNat_eq (h.trans (packed2_toNat a b).symm)⟩)
    · refine .inr (.inr ⟨BitVec.ofNat 8 v.toNat, BitVec.eq_of_toNat_eq ?_⟩)
      rw [packed1_toNat, ← toNat_ofNat_of_le_byteMax h]
  · rintro (⟨a, b, c, rfl⟩ | ⟨a, b, rfl⟩ | ⟨a, rfl⟩)
    · exact .inl ⟨a, b, c, packed3_toNat a b c⟩
    · exact .inr (.inl ⟨a, b, packed2_toNat a b⟩)
    · exact .inr (.inr (packed1_toNat a ▸ byte_toNat_le a))

/-- Each form of canonical value has its range (R67). -/
theorem canonical_range {v : PackedValue} (h : Canonical v) :
    v.toNat ≤ 255 ∨ (1000000000 ≤ v.toNat ∧ v.toNat ≤ 1255255255) ∨
      (2000000000 ≤ v.toNat ∧ v.toNat ≤ 2000255255) := by
  rcases h with ⟨a, b, c, h⟩ | ⟨a, b, h⟩ | h
  · have ha := a.isLt; have hb := b.isLt; have hc := c.isLt
    omega
  · have ha := a.isLt; have hb := b.isLt
    omega
  · exact .inl h

theorem canonical_of_mem_encodeSeq {bs : List Byte} {v : PackedValue} (h : v ∈ encodeSeq bs) : Canonical v := by
  rw [canonical_iff]
  induction bs using encodeSeq.induct with
  | case1 a b c rest ih =>
    rcases List.mem_cons.mp h with rfl | hrest
    · exact .inl ⟨a, b, c, rfl⟩
    · exact ih hrest
  | case2 a b => exact .inr (.inl ⟨a, b, List.mem_singleton.mp h⟩)
  | case3 a => exact .inr (.inr ⟨a, List.mem_singleton.mp h⟩)
  | case4 => cases h

/-- Settles O25: the values of the closed form are canonical, group by group, and a canonical value is the closed form
of the group that its fields hold. -/
theorem encodeEmitsExactlyTheCanonicalValues : Obligations.EncodeEmitsExactlyTheCanonicalValues := by
  unfold Obligations.EncodeEmitsExactlyTheCanonicalValues
  refine ⟨fun bs vs h v hv => ?emitted, fun v hv => ?every⟩
  case emitted =>
    obtain ⟨-, rfl⟩ := answers_encode_iff.mp h
    have hcan := canonical_of_mem_encodeSeq hv
    have hrange := canonical_range hcan
    exact ⟨hcan, toInt_eq_toNat_of_le (by omega), hrange⟩
  case every =>
    rcases (canonical_iff v).mp hv with ⟨a, b, c, rfl⟩ | ⟨a, b, rfl⟩ | ⟨a, rfl⟩
    · exact ⟨[a, b, c], answers_encode (by decide : 3 ≤ 2147483647)⟩
    · exact ⟨[a, b], answers_encode (by decide : 2 ≤ 2147483647)⟩
    · exact ⟨[a], answers_encode (by decide : 1 ≤ 2147483647)⟩

/-! ### The closed form of DECODE (R147) -/

theorem decodeSeq_append {x y : List PackedValue} {bx bys : List Byte} (hx : decodeSeq x = some bx)
    (hy : decodeSeq y = some bys) : decodeSeq (x ++ y) = some (bx ++ bys) := by
  induction x generalizing bx with
  | nil =>
    obtain rfl : [] = bx := Option.some.inj hx
    exact hy
  | cons v vs ih =>
    obtain ⟨bs, more, hv, hmore, rfl⟩ := decodeSeq_cons_some hx
    rw [List.cons_append, decodeSeq_cons_of_some hv (ih hmore), List.append_assoc]

/-- An accepted value holds one, two or three bytes (R131). -/
theorem bytesOf_length {v : PackedValue} {bs : List Byte} (h : bytesOf v = some bs) :
    1 ≤ bs.length ∧ bs.length ≤ 3 := by
  have hcount := tagByteCount_eq_some (tagByteCount_of_unpack (unpack_eq_ok_iff.mpr h))
  omega

theorem decodeSeq_length {vs : List PackedValue} {bs : List Byte} (h : decodeSeq vs = some bs) :
    vs.length ≤ bs.length ∧ bs.length ≤ 3 * vs.length := by
  induction vs generalizing bs with
  | nil =>
    obtain rfl : [] = bs := Option.some.inj h
    exact ⟨Nat.le_refl _, Nat.zero_le _⟩
  | cons v vs ih =>
    obtain ⟨out, more, hv, hmore, rfl⟩ := decodeSeq_cons_some h
    have hout := bytesOf_length hv
    have hrest := ih hmore
    simp only [List.length_append, List.length_cons]
    omega

/-- DECODE answers bytes exactly to the inputs that decode to them. -/
theorem answers_decode_iff {vs : List PackedValue} {bs : List Byte} :
    Answers (decodeRequestOf vs) (completed (.bytes bs)) ↔ decodeSeq vs = some bs := by
  refine ⟨fun h => ?_, answers_decode⟩
  cases hvs : decodeSeq vs with
  | none => cases answers_unique h (answers_decode_illegal rfl hvs)
  | some out =>
    have := answers_unique h (answers_decode hvs)
    simp only [completed, Response.mk.injEq, Option.some.injEq, Result.bytes.injEq, true_and] at this
    rw [this]

/-- Settles O34: each clause is the fact about the closed form, which is what DECODE answers. -/
theorem decodeConcatenates : Obligations.DecodeConcatenates := by
  unfold Obligations.DecodeConcatenates
  refine ⟨fun x y bx bys hx hy => ?append, answers_decode rfl, fun x bx h => ?length⟩
  case append =>
    exact answers_decode (decodeSeq_append (answers_decode_iff.mp hx) (answers_decode_iff.mp hy))
  case length => exact decodeSeq_length (answers_decode_iff.mp h)

/-- Settles O36: what decodes the answer to an input is that input, by the round trip of the closed forms; the two
counterexamples are evaluated. -/
theorem encodeUndoesDecodeOnlyOnItsOutput : Obligations.EncodeUndoesDecodeOnlyOnItsOutput := by
  unfold Obligations.EncodeUndoesDecodeOnlyOnItsOutput
  refine ⟨fun b bs vs henc hdec => ?output, ⟨?single, ?singleBack⟩, ?two, ?twoBack⟩
  case output =>
    obtain ⟨-, rfl⟩ := answers_encode_iff.mp henc
    have hbs := answers_decode_iff.mp hdec
    rw [decodeSeq_encodeSeq] at hbs
    rwa [← Option.some.inj hbs]
  case single => exact answers_decode (by decide)
  case singleBack => exact answers_encode_iff.mpr ⟨by decide, by decide⟩
  case two => exact answers_decode (by decide)
  case twoBack => exact answers_encode_iff.mpr ⟨by decide, by decide⟩

/-- Settles O37: the values of each piece decode to that piece, and ceilings of thirds add up to no less than the
ceiling of the sum. -/
theorem piecesDecodeToTheWhole : Obligations.PiecesDecodeToTheWhole := by
  unfold Obligations.PiecesDecodeToTheWhole
  intro x y vx vy hx hy
  obtain ⟨-, rfl⟩ := answers_encode_iff.mp hx
  obtain ⟨-, rfl⟩ := answers_encode_iff.mp hy
  refine ⟨answers_decode (decodeSeq_append (decodeSeq_encodeSeq x) (decodeSeq_encodeSeq y)), fun vxy h => ?_⟩
  obtain ⟨-, rfl⟩ := answers_encode_iff.mp h
  simp only [encodeSeq_length, List.length_append]
  omega

/-! ### Steps from request to response -/

theorem decodeRequest_encode {r : Request} (h : r.op = 4#3) : decodeRequest r = .encodeBytes r.bytes := by
  simp only [decodeRequest, h]
  rfl

theorem decodeRequest_decode {r : Request} (h : r.op = 5#3) : decodeRequest r = .decodeValues r.values := by
  simp only [decodeRequest, h]
  rfl

/-- A run that responds leaves the requests behind the one answered. -/
theorem exists_run_of_respondsIn {k : Nat} {s : State} {resp : Response} {r : Request} {rest : List Request}
    (h : RespondsIn k s resp) (hr : s.requests = r :: rest) :
    ∃ t, run k s = .next t ∧ t.Idle ∧ t.requests = rest ∧ t.responses = s.responses ++ [resp] := by
  obtain ⟨t, hrun, hidle, hreq, hres⟩ := h
  exact ⟨t, hrun, hidle, by rw [hreq, hr, List.tail_cons], hres⟩

/-- A whole DECODE up to its first illegal value (R146). -/
theorem respondsIn_decode_illegal {s : State} {r : Request} {rest : List Request} {good more : List PackedValue}
    {bad : PackedValue} (hs : s.Idle) (hr : s.requests = r :: rest)
    (hdec : decodeRequest r = .decodeValues (good ++ bad :: more)) (hgood : ∀ u ∈ good, bytesOf u ≠ none)
    (hbad : bytesOf bad = none) : RespondsIn (good.length + 2) s (faulty .invalidPackedValue) := by
  have hexec : exec (decodeRequest r) s = .next (beginDecode (good ++ bad :: more) s) := by rw [hdec]; rfl
  exact respondsIn_succ (step_idle_of_request hs.1 hr hexec) rfl rfl
    (respondsIn_decoding_illegal good rfl rfl hgood hbad)

/-- Settles O22: the run of a whole ENCODE, which takes a step for each group, one to begin and one to respond. -/
theorem encodeRespondsAfterItsGroups : Obligations.EncodeRespondsAfterItsGroups := by
  unfold Obligations.EncodeRespondsAfterItsGroups
  intro s r rest hs hr hop hlen
  exact exists_run_of_respondsIn (respondsIn_encode hs hr (decodeRequest_encode hop) hlen) hr

/-- Settles O32: the run of a whole DECODE, which takes a step for each value, one to begin and one to respond. -/
theorem decodeRespondsAfterItsValues : Obligations.DecodeRespondsAfterItsValues := by
  unfold Obligations.DecodeRespondsAfterItsValues
  intro s r rest bs hs hr hop hbs
  exact exists_run_of_respondsIn (respondsIn_decode hs hr (decodeRequest_decode hop) hbs) hr

/-- Settles O33: the input is cut at the illegal value, and what stands before it takes a step each. -/
theorem decodeStopsAtTheFirstIllegalValue : Obligations.DecodeStopsAtTheFirstIllegalValue := by
  unfold Obligations.DecodeStopsAtTheFirstIllegalValue
  intro s r rest j v hs hr hop hv hbad hbefore
  obtain ⟨hj, hvj⟩ := List.getElem?_eq_some_iff.mp hv
  have hcut : r.values = r.values.take j ++ v :: r.values.drop (j + 1) := by
    rw [← hvj, ← List.drop_eq_getElem_cons hj, List.take_append_drop]
  have hgood : ∀ u ∈ r.values.take j, bytesOf u ≠ none := fun u hu => by
    obtain ⟨i, hi, rfl⟩ := List.mem_take_iff_getElem.mp hu
    exact hbefore i _ (by omega) (List.getElem?_eq_getElem (by omega))
  have hrun := respondsIn_decode_illegal hs hr ((decodeRequest_decode hop).trans (congrArg _ hcut)) hgood hbad
  rw [List.length_take, Nat.min_eq_left hj.le] at hrun
  exact exists_run_of_respondsIn hrun hr

/-! ### The first step of a batch operation, and the group step of DECODE -/

theorem exec_encodeBytes_of_le {bs : List Byte} (h : bs.length ≤ 2147483647) (s : State) :
    exec (.encodeBytes bs) s = .next (beginEncode bs s) := by
  simp only [exec, execEncode, (exceedsI32_eq_false_iff _).mpr h, Bool.false_eq_true, if_false]

theorem exec_encodeBytes_of_lt {bs : List Byte} (h : 2147483647 < bs.length) (s : State) :
    exec (.encodeBytes bs) s = .next (respond (faulty .rangeExceeded) s) := by
  simp only [exec, execEncode, (exceedsI32_eq_true_iff _).mpr h, if_true]
  rfl

theorem exec_decodeValues (vs : List PackedValue) (s : State) :
    exec (.decodeValues vs) s = .next (beginDecode vs s) := rfl

/-- Settles O16: the guard decides between the fault and the beginning of the operation. -/
theorem encodeGuardsThenBegins : Obligations.EncodeGuardsThenBegins := by
  unfold Obligations.EncodeGuardsThenBegins
  exact ⟨fun _ s => ⟨fun h => exec_encodeBytes_of_lt h s, fun h => exec_encodeBytes_of_le h s⟩, rfl⟩

/-- Settles O27: nothing is checked before the operation begins. -/
theorem decodeBegins : Obligations.DecodeBegins := by
  unfold Obligations.DecodeBegins
  exact fun vs s => exec_decodeValues vs s

/-- The bytes of one packed value emitted, or the fault when it holds none (R141, R146). -/
def yieldOrRaise : Option (List Byte) → State → State
  | some bs, s => yieldBytes bs s
  | none, s => respond (faulty .invalidPackedValue) s

theorem yieldOrRaise_some (bs : List Byte) (s : State) :
    yieldOrRaise (some bs) s = { s with pc := s.pc + 1, oc := s.oc + bs.length,
                                        mem := { s.mem with outBytes := s.mem.outBytes ++ bs } } :=
  yieldBytes_eq bs s

/-- A class of packed value emits the bytes it yields, and is the fault when it yields none (R148, R149). -/
theorem exec_class {i : Instr} (h : i.format = .pv) (s : State) : exec i s = .next (yieldOrRaise (yields i) s) := by
  cases i with
  | pv3 | pv2 | pv1 | pvFieldTooLarge | pvNegative => rfl
  | readField | zeroField | writeField | exceedsI32 | encodeBytes | decodeValues | reserved | pack3 | pack1 | pack2
  | unpack => cases h

/-- UNPACK emits the bytes its operand holds, and is the fault when it holds none. -/
theorem exec_unpack (v : PackedValue) (s : State) : exec (.unpack v) s = .next (yieldOrRaise (bytesOf v) s) := by
  cases h : bytesOf v with
  | some bs => exact exec_unpack_of_bytesOf h s
  | none => exact exec_unpack_of_illegal h s

/-- Settles O30: what `yieldBytes` does to each field, and the fault for the illegal classes. -/
theorem packedValueClassesYield : Obligations.PackedValueClassesYield := by
  unfold Obligations.PackedValueClassesYield
  intro s
  refine ⟨fun a b c => ?_, fun a b c => ?_, fun a b c => ?_, fun _ _ _ _ => rfl, fun _ => rfl⟩
  all_goals
    rw [exec_class rfl, yields, yieldOrRaise_some]
    rfl

/-- Settles O29: a value holds the bytes that its class yields. -/
theorem unpackRunsItsClass : Obligations.UnpackRunsItsClass := by
  unfold Obligations.UnpackRunsItsClass
  intro v s
  rw [exec_unpack, exec_class (decodePackedValue_format v), bytesOf]

theorem exec_unpack_of_bytesOf_eq {v : PackedValue} {bs : List Byte} (h : bytesOf v = some bs) (s : State) :
    exec (.unpack v) s = .next { s with pc := s.pc + 1, oc := s.oc + bs.length,
                                        mem := { s.mem with outBytes := s.mem.outBytes ++ bs } } := by
  rw [exec_unpack, h, yieldOrRaise_some]

theorem bytesOf_of_nonnegative {v : PackedValue} (h : 0 ≤ v.toInt) :
    bytesOf v = yields (classify (dec 10 10 v.toNat) (dec 9 7 v.toNat) (dec 6 4 v.toNat) (dec 3 1 v.toNat)) := by
  rw [bytesOf, decodePackedValue, if_neg (by omega)]

theorem bytesOf_of_negative {v : PackedValue} (h : v.toInt < 0) : bytesOf v = none := by
  rw [bytesOf, decodePackedValue, if_pos h]
  rfl

/-- The tag of a value that is not negative is 0, 1 or 2. -/
theorem tag_le_of_nonnegative {v : PackedValue} (h : 0 ≤ v.toInt) : dec 10 10 v.toNat ≤ 2 := by
  have hv := toNat_of_nonnegative (by omega : ¬v.toInt < 0)
  simp only [dec]
  omega

/-- Settles O28: the tag and the selected fields decide the class, which yields exactly the bytes the statement lists,
or none. -/
theorem unpackYieldsTheSelectedFields : Obligations.UnpackYieldsTheSelectedFields := by
  unfold Obligations.UnpackYieldsTheSelectedFields
  intro v s
  refine ⟨fun hn ht a b c ha hb hc => ?triple, fun hn ht b c hb hc => ?pair, fun hn ht c hc => ?single,
    fun h => exec_unpack_of_illegal ?illegal s⟩
  case triple =>
    have hbytes : bytesOf v = some [a, b, c] := by
      rw [bytesOf_of_nonnegative hn, ht, ← ha, ← hb, ← hc, classify_triple, yields]
    exact exec_unpack_of_bytesOf_eq hbytes s
  case pair =>
    have hbytes : bytesOf v = some [b, c] := by
      rw [bytesOf_of_nonnegative hn, ht, ← hb, ← hc, classify_pair, yields]
    exact exec_unpack_of_bytesOf_eq hbytes s
  case single =>
    have hbytes : bytesOf v = some [c] := by
      rw [bytesOf_of_nonnegative hn, ht, ← hc, classify_single, yields]
    exact exec_unpack_of_bytesOf_eq hbytes s
  case illegal =>
    by_cases hneg : v.toInt < 0
    · exact bytesOf_of_negative hneg
    · have hn : 0 ≤ v.toInt := Int.not_lt.mp hneg
      have htag := tag_le_of_nonnegative hn
      rw [bytesOf_of_nonnegative hn, classify_of_selectedFieldTooLarge htag (selectedFieldTooLarge_iff.mpr (by omega))]
      rfl

end Sys2Proof.Machine

end

section
/-! Everything one step of the block can do (42_packing_encoder.md R122, 43_unpacking_decoder.md R141, 60_exceptions.md
R177), and what follows for every step: the invariant, the responses, the cursors and the working value. -/

namespace Sys2Proof.Machine

/-! ### Statuses of the digit-field operations, and responses -/

theorem readField_cases (v : WorkingValue) (p w : FieldIndex) :
    (∃ g, readField v p w = .ok g) ∨ readField v p w = .error .domainError := by
  by_cases hd : SupportedField p w
  · obtain ⟨g, hg, -⟩ := readField_of_supported v hd
    exact .inl ⟨g, hg⟩
  · exact .inr (readField_of_unsupported v hd)

theorem zeroField_cases (v : WorkingValue) (p w : FieldIndex) :
    (∃ z, zeroField v p w = .ok z) ∨ zeroField v p w = .error .domainError := by
  by_cases hd : SupportedField p w
  · obtain ⟨z, hz, -⟩ := zeroField_of_supported v hd
    exact .inl ⟨z, hz⟩
  · exact .inr (zeroField_of_unsupported v hd)

/-- A response is well formed when a result stands exactly beside the status `OK` (R25). -/
theorem response_wf_iff (resp : Response) : resp.wf = true ↔ (resp.status = .ok ↔ resp.result.isSome = true) := by
  rw [Response.wf, beq_iff_eq, Bool.eq_iff_iff, beq_iff_eq]

theorem completed_wf (res : Result) : (completed res).wf = true := rfl

theorem faulty_wf {st : Status} (h : st ≠ .ok) : (faulty st).wf = true := by simp [response_wf_iff, faulty, h]

theorem fieldResponse_readField_wf (v : WorkingValue) (p w : FieldIndex) :
    (fieldResponse .digitGroup (readField v p w)).wf = true := by
  rcases readField_cases v p w with ⟨g, h⟩ | h <;> rw [h] <;> rfl

theorem fieldResponse_zeroField_wf (v : WorkingValue) (p w : FieldIndex) :
    (fieldResponse .value (zeroField v p w)).wf = true := by
  rcases zeroField_cases v p w with ⟨z, h⟩ | h <;> rw [h] <;> rfl

theorem fieldResponse_writeField_wf (v x : WorkingValue) (p w : FieldIndex) :
    (fieldResponse .value (writeField v x p w)).wf = true := by
  rcases writeField_cases v x p w with ⟨-, h⟩ | ⟨-, -, h⟩ | ⟨-, -, -, h⟩ | ⟨-, -, r, h, -⟩ <;> rw [h] <;> rfl

/-! ### The group step that the bytes left select -/

theorem exists_decodeGroup {l : List Byte} (h : l ≠ []) : ∃ i, decodeGroup (l.take 3) = .ok i := by
  match l with
  | [] => exact absurd rfl h
  | [a] => exact ⟨.pack1 a, rfl⟩
  | [a, b] => exact ⟨.pack2 a b, rfl⟩
  | a :: b :: c :: _ => exact ⟨.pack3 a b c, rfl⟩

/-- A group step emits the one value that its bytes encode to (R123 to R125, R132). -/
theorem exec_group {g : List Byte} {i : Instr} (h : decodeGroup g = .ok i) :
    ∃ w v, encodeSeq g = [v] ∧ ∀ s, exec i s = .next (groupEmitted w v g.length s) := by
  match g with
  | [] => cases h
  | [a] => cases h; exact ⟨_, _, rfl, exec_pack1 a⟩
  | [a, b] => cases h; exact ⟨_, _, rfl, exec_pack2 a b⟩
  | [a, b, c] => cases h; exact ⟨_, _, rfl, exec_pack3 a b c⟩
  | _ :: _ :: _ :: _ :: _ => cases h

/-- A step inside ENCODE with bytes left, all of it. -/
theorem step_encoding_left {s : State} (ha : s.activity = .encoding) (hpc : s.pc < s.mem.inBytes.length) :
    ∃ i w v, decodeGroup ((s.mem.inBytes.drop s.pc).take 3) = .ok i ∧
      encodeSeq ((s.mem.inBytes.drop s.pc).take 3) = [v] ∧
      exec i s = .next (groupEmitted w v ((s.mem.inBytes.drop s.pc).take 3).length s) ∧
      step s = .next (forgetW (groupEmitted w v ((s.mem.inBytes.drop s.pc).take 3).length s)) := by
  have hne : s.mem.inBytes.drop s.pc ≠ [] := by simpa using hpc
  obtain ⟨i, hi⟩ := exists_decodeGroup hne
  obtain ⟨w, v, hv, he⟩ := exec_group hi
  exact ⟨i, w, v, hi, hv, he s, step_encoding_group ha (selectEncode_of_left rfl hne hi) (he s)⟩

/-- The bytes that encode to one value are a group: one, two or three (R71). -/
theorem length_of_encodeSeq_singleton {g : List Byte} {v : PackedValue} (h : encodeSeq g = [v]) :
    1 ≤ g.length ∧ g.length ≤ 3 := by
  have hlen := encodeSeq_length g
  rw [h, List.length_singleton] at hlen
  omega

/-! ### Everything a step can do -/

/-- `t` is what one of the six kinds of step makes of `s`. -/
inductive StepEffect (s : State) : State → Prop where
  /-- the idle block waits for a request -/
  | waits (ha : s.activity = .idle) (hr : s.requests = []) : StepEffect s s
  /-- the response to the request on the port -/
  | responds {resp : Response} (hwf : resp.wf = true) : StepEffect s (respond resp s)
  /-- an ENCODE that passes the guard begins -/
  | beginsEncode {r : Request} {rest : List Request} (ha : s.activity = .idle) (hr : s.requests = r :: rest)
      (hop : r.op = 4#3) (hlen : r.bytes.length ≤ 2147483647) : StepEffect s (beginEncode r.bytes s)
  /-- a DECODE begins -/
  | beginsDecode {r : Request} {rest : List Request} (ha : s.activity = .idle) (hr : s.requests = r :: rest)
      (hop : r.op = 5#3) : StepEffect s (beginDecode r.values s)
  /-- the group `g`, full or the last one, is read and its value emitted -/
  | packs {g rest : List Byte} {w : WorkingValue} {v : PackedValue} (ha : s.activity = .encoding)
      (hcut : s.mem.inBytes.drop s.pc = g ++ rest) (hg : encodeSeq g = [v]) (hfull : g.length = 3 ∨ rest = []) :
      StepEffect s (forgetW (groupEmitted w v g.length s))
  /-- the value `v` is read and its bytes emitted -/
  | unpacks {v : PackedValue} {bs : List Byte} (ha : s.activity = .decoding)
      (hv : s.mem.inValues[s.pc]? = some v) (hbs : bytesOf v = some bs) : StepEffect s (yieldBytes bs s)

theorem step_idle_of_no_request {s : State} (ha : s.activity = .idle) (hr : s.requests = []) : step s = .next s :=
  step_wait (by simp only [select, ha, selectRequest_wait hr])

theorem op_of_decodeRequest_encode {r : Request} {bs : List Byte} (h : decodeRequest r = .encodeBytes bs) :
    r.op = 4#3 ∧ bs = r.bytes := by
  unfold decodeRequest at h
  split at h
  case h_5 hop => cases h; exact ⟨BitVec.eq_of_toNat_eq hop, rfl⟩
  all_goals cases h

theorem op_of_decodeRequest_decode {r : Request} {vs : List PackedValue} (h : decodeRequest r = .decodeValues vs) :
    r.op = 5#3 ∧ vs = r.values := by
  unfold decodeRequest at h
  split at h
  case h_6 hop => cases h; exact ⟨BitVec.eq_of_toNat_eq hop, rfl⟩
  all_goals cases h

/-- The idle block with a request either responds or begins a batch operation. -/
theorem exec_request_effect {s : State} {r : Request} {rest : List Request} (ha : s.activity = .idle)
    (hr : s.requests = r :: rest) : ∃ t, exec (decodeRequest r) s = .next t ∧ StepEffect s t := by
  have hformat := decodeRequest_format r
  cases hi : decodeRequest r with
  | readField v p w => exact ⟨_, exec_readField v p w s, .responds (fieldResponse_readField_wf v p w)⟩
  | zeroField v p w => exact ⟨_, exec_zeroField v p w s, .responds (fieldResponse_zeroField_wf v p w)⟩
  | writeField v x p w => exact ⟨_, exec_writeField v x p w s, .responds (fieldResponse_writeField_wf v x p w)⟩
  | exceedsI32 n => exact ⟨_, exec_exceedsI32 n s, .responds (completed_wf _)⟩
  | encodeBytes bs =>
    obtain ⟨hop, rfl⟩ := op_of_decodeRequest_encode hi
    by_cases hlen : r.bytes.length ≤ 2147483647
    · exact ⟨_, exec_encodeBytes_of_le hlen s, .beginsEncode ha hr hop hlen⟩
    · exact ⟨_, exec_encodeBytes_of_lt (Nat.not_le.mp hlen) s, .responds (faulty_wf (by decide))⟩
  | decodeValues vs =>
    obtain ⟨hop, rfl⟩ := op_of_decodeRequest_decode hi
    exact ⟨_, exec_decodeValues r.values s, .beginsDecode ha hr hop⟩
  | reserved low => exact ⟨respond (faulty .illegalOp) s, rfl, .responds (faulty_wf (by decide))⟩
  | pack3 | pack1 | pack2 | unpack | pv3 | pv2 | pv1 | pvFieldTooLarge | pvNegative =>
    rw [hi] at hformat
    cases hformat

theorem step_encoding_effect {s : State} (ha : s.activity = .encoding) : ∃ t, step s = .next t ∧ StepEffect s t := by
  by_cases hpc : s.pc < s.mem.inBytes.length
  · obtain ⟨i, w, v, -, hv, -, hstep⟩ := step_encoding_left ha hpc
    have hfull : ((s.mem.inBytes.drop s.pc).take 3).length = 3 ∨ (s.mem.inBytes.drop s.pc).drop 3 = [] := by
      rw [List.length_take, List.drop_eq_nil_iff]
      omega
    exact ⟨_, hstep, .packs ha (List.take_append_drop 3 _).symm hv hfull⟩
  · exact ⟨_, step_encoding_end ha (Nat.not_lt.mp hpc), .responds (completed_wf _)⟩

theorem step_decoding_effect {s : State} (ha : s.activity = .decoding) : ∃ t, step s = .next t ∧ StepEffect s t := by
  cases hv : s.mem.inValues[s.pc]? with
  | none => exact ⟨_, step_decoding_end ha (List.getElem?_eq_none_iff.mp hv), .responds (completed_wf _)⟩
  | some v =>
    refine ⟨_, step_decoding_element ha hv (exec_unpack v s), ?_⟩
    cases hbs : bytesOf v with
    | none => exact .responds (faulty_wf (by decide))
    | some bs => exact .unpacks ha hv hbs

/-- From every state the block makes a step of one of the six kinds. -/
theorem exists_step_effect (s : State) : ∃ t, step s = .next t ∧ StepEffect s t := by
  cases ha : s.activity with
  | idle =>
    cases hr : s.requests with
    | nil => exact ⟨s, step_idle_of_no_request ha hr, .waits ha hr⟩
    | cons r rest =>
      obtain ⟨t, he, heffect⟩ := exec_request_effect ha hr
      exact ⟨t, step_idle_of_request ha hr he, heffect⟩
  | encoding => exact step_encoding_effect ha
  | decoding => exact step_decoding_effect ha

theorem stepEffect_of_step {s t : State} (h : step s = .next t) : StepEffect s t := by
  obtain ⟨u, hu, heffect⟩ := exists_step_effect s
  rw [h] at hu
  cases hu
  exact heffect

/-! ### The invariant -/

section Invariant

variable {s : State}

/-- A response leaves the block idle, with one more well-formed response and one request fewer. -/
theorem inv_respond {resp : Response} (hinv : s.Inv) (hwf : resp.wf = true) : (respond resp s).Inv := by
  obtain ⟨hreq, hres, -, -⟩ := hinv
  refine ⟨fun r hr => hreq r (List.mem_of_mem_tail hr), fun r hr => ?_, respond_mem_wf resp s, rfl, rfl, rfl, rfl⟩
  rw [respond_responses, List.mem_append, List.mem_singleton] at hr
  rcases hr with hr | rfl
  · exact hres r hr
  · exact hwf

/-- A request that a caller can make has operands that its batch operation can carry (R41). -/
theorem request_wellFormed_iff (r : Request) :
    r.wellFormed = true ↔ (Instr.encodeBytes r.bytes).wellFormed = true ∧
      (Instr.decodeValues r.values).wellFormed = true := by
  simp only [Request.wellFormed, Instr.wellFormed, Bool.and_eq_true]

theorem inv_beginEncode {r : Request} {rest : List Request} (hinv : s.Inv) (hr : s.requests = r :: rest)
    (hop : r.op = 4#3) (hlen : r.bytes.length ≤ 2147483647) : (beginEncode r.bytes s).Inv := by
  obtain ⟨hreq, hres, -, -⟩ := hinv
  obtain ⟨hbytes, -⟩ := (request_wellFormed_iff r).mp (hreq r (hr ▸ List.mem_cons_self))
  exact ⟨hreq, hres, beginEncode_mem_wf _ s hbytes, ⟨r, rest, hr, hop, rfl⟩, hlen, Nat.zero_le _, .inl rfl, rfl, rfl,
    rfl, rfl⟩

theorem inv_beginDecode {r : Request} {rest : List Request} (hinv : s.Inv) (hr : s.requests = r :: rest)
    (hop : r.op = 5#3) : (beginDecode r.values s).Inv := by
  obtain ⟨hreq, hres, -, -⟩ := hinv
  obtain ⟨-, hvalues⟩ := (request_wellFormed_iff r).mp (hreq r (hr ▸ List.mem_cons_self))
  exact ⟨hreq, hres, beginDecode_mem_wf _ s hvalues, ⟨r, rest, hr, hop, rfl⟩, Nat.zero_le _, rfl, rfl, rfl, rfl⟩

/-- What stands before a cursor that has moved over a group is what stood before it and the group. -/
theorem take_add_of_drop {α : Type} {l g rest : List α} {n : Nat} (h : l.drop n = g ++ rest) :
    l.take (n + g.length) = l.take n ++ g := by
  rw [List.take_add, h, List.take_left']
  rfl

/-- A group step: the bytes read before it are full groups, so its value follows their encoding. -/
theorem encodingInv_packs {g rest : List Byte} {w : WorkingValue} {v : PackedValue} (hinv : s.EncodingInv)
    (hcut : s.mem.inBytes.drop s.pc = g ++ rest) (hg : encodeSeq g = [v]) (hfull : g.length = 3 ∨ rest = []) :
    (forgetW (groupEmitted w v g.length s)).EncodingInv := by
  obtain ⟨hport, hlen, hpc, hboundary, hout, hoc, hin, hbytes⟩ := hinv
  have hleft : s.mem.inBytes.length - s.pc = g.length + rest.length := by
    rw [← List.length_drop, hcut, List.length_append]
  have hgroup := length_of_encodeSeq_singleton hg
  have hmod : s.pc % 3 = 0 := by omega
  have hread : encodeSeq (s.mem.inBytes.take (s.pc + g.length)) = s.mem.outValues ++ [v] := by
    have hbefore : (s.mem.inBytes.take s.pc).length % 3 = 0 := by rw [List.length_take, Nat.min_eq_left hpc, hmod]
    rw [take_add_of_drop hcut, encodeSeq_append hbefore, hg, hout]
  refine ⟨hport, hlen, ?pc, ?boundary, hread.symm, ?oc, hin, hbytes⟩
  case pc =>
    simp only [forgetW_pc, forgetW_mem, groupEmitted_pc, groupEmitted_mem]
    omega
  case boundary =>
    simp only [forgetW_pc, forgetW_mem, groupEmitted_pc, groupEmitted_mem]
    rcases hfull with h3 | rfl
    · omega
    · simp only [List.length_nil] at hleft
      omega
  case oc =>
    simp only [forgetW_oc, forgetW_mem, groupEmitted_mem, List.length_append, List.length_singleton, ← hoc]
    rfl

/-- An element step: the bytes of one more value follow those of the values read before. -/
theorem decodingInv_unpacks {v : PackedValue} {bs : List Byte} (hinv : s.DecodingInv)
    (hv : s.mem.inValues[s.pc]? = some v) (hbs : bytesOf v = some bs) : (yieldBytes bs s).DecodingInv := by
  obtain ⟨hport, hpc, hout, hoc, hin, hvalues⟩ := hinv
  obtain ⟨hlt, hget⟩ := List.getElem?_eq_some_iff.mp hv
  have hone : decodeSeq [v] = some bs := by rw [decodeSeq_cons_of_some hbs rfl, List.append_nil]
  have hread : decodeSeq (s.mem.inValues.take (s.pc + 1)) = some (s.mem.outBytes ++ bs) := by
    rw [← List.take_append_getElem hlt, hget]
    exact decodeSeq_append hout hone
  rw [yieldBytes_eq]
  exact ⟨hport, hlt, hread, by rw [hoc, List.length_append], hin, hvalues⟩

theorem inv_packs {g rest : List Byte} {w : WorkingValue} {v : PackedValue} (hinv : s.Inv)
    (ha : s.activity = .encoding) (hcut : s.mem.inBytes.drop s.pc = g ++ rest) (hg : encodeSeq g = [v])
    (hfull : g.length = 3 ∨ rest = []) : (forgetW (groupEmitted w v g.length s)).Inv := by
  obtain ⟨hreq, hres, hmem, hact⟩ := hinv
  simp only [ha] at hact
  refine ⟨hreq, hres, hmem, ?_⟩
  simp only [forgetW_activity, groupEmitted_activity, ha]
  exact encodingInv_packs hact hcut hg hfull

theorem inv_unpacks {v : PackedValue} {bs : List Byte} (hinv : s.Inv) (ha : s.activity = .decoding)
    (hv : s.mem.inValues[s.pc]? = some v) (hbs : bytesOf v = some bs) : (yieldBytes bs s).Inv := by
  obtain ⟨hreq, hres, hmem, hact⟩ := hinv
  simp only [ha] at hact
  have hnext := decodingInv_unpacks hact hv hbs
  rw [yieldBytes_eq] at hnext ⊢
  refine ⟨hreq, hres, hmem, ?_⟩
  simp only [ha]
  exact hnext

end Invariant

/-- Settles O57: one lemma for each kind of step; a group or an element extends the part of the input whose output
stands in the output space. -/
theorem everyStepKeepsTheInvariant : Obligations.EveryStepKeepsTheInvariant := by
  unfold Obligations.EveryStepKeepsTheInvariant
  intro s t hinv hstep
  cases stepEffect_of_step hstep with
  | waits => exact hinv
  | responds hwf => exact inv_respond hinv hwf
  | beginsEncode _ hr hop hlen => exact inv_beginEncode hinv hr hop hlen
  | beginsDecode _ hr hop => exact inv_beginDecode hinv hr hop
  | packs ha hcut hg hfull => exact inv_packs hinv ha hcut hg hfull
  | unpacks ha hv hbs => exact inv_unpacks hinv ha hv hbs

/-- Settles O56: the reset state evaluated. -/
theorem resetMeetsTheInvariant : Obligations.ResetMeetsTheInvariant := by
  unfold Obligations.ResetMeetsTheInvariant
  have hidle : State.reset.Idle := ⟨rfl, rfl, rfl, rfl⟩
  exact ⟨⟨fun _ h => (List.not_mem_nil h).elim, fun _ h => (List.not_mem_nil h).elim, State.reset_mem_wf, hidle⟩, hidle,
    rfl, rfl⟩

/-! ### What every step keeps -/

/-- Settles O47: one of the six kinds of step is always there. -/
theorem everyStepGoesOn : Obligations.EveryStepGoesOn := by
  unfold Obligations.EveryStepGoesOn
  intro s
  obtain ⟨t, hstep, -⟩ := exists_step_effect s
  exact ⟨t, hstep⟩

/-- Settles O48: of the six kinds of step one gives a response, and the others leave both ports alone. -/
theorem oneResponseForEachRequest : Obligations.OneResponseForEachRequest := by
  unfold Obligations.OneResponseForEachRequest
  intro s t hstep
  cases stepEffect_of_step hstep with
  | responds hwf => exact .inr ⟨rfl, ⟨rfl, rfl, rfl, rfl⟩, _, rfl, (response_wf_iff _).mp hwf⟩
  | unpacks =>
    rw [yieldBytes_eq]
    exact .inl ⟨rfl, rfl⟩
  | waits | beginsEncode | beginsDecode | packs => exact .inl ⟨rfl, rfl⟩

/-- Settles O49: only a group step and an element step run inside a batch operation without ending it; each reads at
least one element that is there and emits at least one. -/
theorem batchOperationsMoveForward : Obligations.BatchOperationsMoveForward := by
  unfold Obligations.BatchOperationsMoveForward
  intro s t hstep hs ht
  cases stepEffect_of_step hstep with
  | waits ha | beginsEncode ha | beginsDecode ha => exact absurd ha hs
  | responds => exact absurd rfl ht
  | @packs g rest w v ha hcut hg =>
    have hleft : s.mem.inBytes.length - s.pc = g.length + rest.length := by
      rw [← List.length_drop, hcut, List.length_append]
    have hgroup := length_of_encodeSeq_singleton hg
    refine ⟨rfl, rfl, rfl, Nat.lt_add_of_pos_right hgroup.1, Nat.lt_succ_self _, List.prefix_append _ _,
      List.prefix_rfl, fun _ => ⟨?_, rfl⟩, fun hd => ?_⟩
    · simp only [forgetW_pc, groupEmitted_pc]
      omega
    · rw [ha] at hd
      cases hd
  | unpacks ha hv hbs =>
    obtain ⟨hlt, -⟩ := List.getElem?_eq_some_iff.mp hv
    rw [yieldBytes_eq]
    refine ⟨rfl, rfl, rfl, Nat.lt_succ_self _, Nat.lt_add_of_pos_right (bytesOf_length hbs).1, List.prefix_rfl,
      List.prefix_append _ _, fun hd => ?_, fun _ => ⟨hlt, rfl⟩⟩
    rw [ha] at hd
    cases hd

/-! ### The step of each activity -/

/-- Settles O43: the request on the port decodes to one instruction, which answers a next state. -/
theorem stepRunsTheRequestOnThePort : Obligations.StepRunsTheRequestOnThePort := by
  unfold Obligations.StepRunsTheRequestOnThePort
  intro s r rest i ha hr hi
  obtain rfl : decodeRequest r = i := Except.ok.inj hi
  obtain ⟨t, he, -⟩ := exec_request_effect ha hr
  rw [he, step_idle_of_request ha hr he]

/-- Settles O44: the bytes left select a group step, after which `W` is free; with none left the step responds. -/
theorem stepRunsTheEncoderGroup : Obligations.StepRunsTheEncoderGroup := by
  unfold Obligations.StepRunsTheEncoderGroup
  intro s ha
  refine ⟨fun hpc => ?_, fun hend => step_encoding_end ha hend⟩
  obtain ⟨i, w, v, hi, -, he, hstep⟩ := step_encoding_left ha hpc
  exact ⟨i, _, hi, he, hstep⟩

/-- Settles O45: an element at the cursor is unpacked; with none there the step responds. -/
theorem stepRunsTheDecoderGroup : Obligations.StepRunsTheDecoderGroup := by
  unfold Obligations.StepRunsTheDecoderGroup
  intro s ha
  refine ⟨fun v hv => ?_, fun hend => step_decoding_end ha hend⟩
  rw [exec_unpack]
  exact step_decoding_element ha hv (exec_unpack v s)

/-- Settles O46: no request is selected as waiting. -/
theorem idleBlockWaits : Obligations.IdleBlockWaits := by
  unfold Obligations.IdleBlockWaits
  intro s ha hr
  exact step_idle_of_no_request ha hr

/-! ### The working value -/

/-- The state with another number in `W`. -/
def withW (w : WorkingValue) (s : State) : State := { s with w := w }

@[simp] theorem withW_w (w : WorkingValue) (s : State) : (withW w s).w = w := rfl
@[simp] theorem withW_activity (w : WorkingValue) (s : State) : (withW w s).activity = s.activity := rfl
@[simp] theorem withW_pc (w : WorkingValue) (s : State) : (withW w s).pc = s.pc := rfl
@[simp] theorem withW_mem (w : WorkingValue) (s : State) : (withW w s).mem = s.mem := rfl
@[simp] theorem withW_requests (w : WorkingValue) (s : State) : (withW w s).requests = s.requests := rfl
@[simp] theorem withW_self (s : State) : withW s.w s = s := rfl

theorem memReadBytes_withW (w : WorkingValue) (s : State) (i n : Nat) :
    memReadBytes (withW w s) i n = memReadBytes s i n := by
  induction n generalizing i with
  | zero => rfl
  | succ n ih => simp only [memReadBytes, memReadByte, withW_mem, ih]

theorem selectEncode_withW (w : WorkingValue) (s : State) : selectEncode (withW w s) = selectEncode s := by
  unfold selectEncode
  rw [show bytesLeft (withW w s) = bytesLeft s from rfl, withW_pc, memReadBytes_withW]

theorem select_idle {s : State} (ha : s.activity = .idle) : select s = selectRequest s := by
  rw [select, ha]

theorem select_encoding {s : State} (ha : s.activity = .encoding) : select s = selectEncode s := by
  rw [select, ha]

theorem select_decoding {s : State} (ha : s.activity = .decoding) : select s = selectDecode s := by
  rw [select, ha]

/-- What the block selects does not depend on `W`. -/
theorem select_withW (w : WorkingValue) (s : State) : select (withW w s) = select s := by
  have ha' := withW_activity w s
  cases ha : s.activity with
  | idle => rw [select_idle ha, select_idle (ha'.trans ha)]; rfl
  | encoding => rw [select_encoding ha, select_encoding (ha'.trans ha), selectEncode_withW]
  | decoding => rw [select_decoding ha, select_decoding (ha'.trans ha)]; rfl

theorem yieldOrRaise_withW (out : Option (List Byte)) (w : WorkingValue) (s : State) :
    yieldOrRaise out (withW w s) = withW w (yieldOrRaise out s) := by
  cases out with
  | none => rfl
  | some bs => rw [yieldOrRaise_some, yieldOrRaise_some]; rfl

/-- The three instructions that write `W` (R123 to R125). -/
def WritesW (i : Instr) : Prop := (∃ a b c, i = .pack3 a b c) ∨ (∃ a, i = .pack1 a) ∨ ∃ a b, i = .pack2 a b

/-- An instruction that writes `W` does not read it: its next state is the same whatever `W` held. -/
theorem exec_withW_of_writesW {i : Instr} (h : WritesW i) (s : State) : ∃ t, ∀ w, exec i (withW w s) = .next t := by
  rcases h with ⟨a, b, c, rfl⟩ | ⟨a, rfl⟩ | ⟨a, b, rfl⟩
  · exact ⟨groupEmitted _ _ 3 s, fun w => exec_pack3 a b c (withW w s)⟩
  · exact ⟨groupEmitted _ _ 1 s, fun w => exec_pack1 a (withW w s)⟩
  · exact ⟨groupEmitted _ _ 2 s, fun w => exec_pack2 a b (withW w s)⟩

/-- From `s` the instruction gives one next state whatever `W` holds, but for `W` itself, which it carries along. -/
def CarriesW (i : Instr) (s : State) : Prop := ∃ t, ∀ w, exec i (withW w s) = .next (withW w t)

theorem carriesW_of_respond {i : Instr} {resp : Response} (h : ∀ u, exec i u = .next (respond resp u)) (s : State) :
    CarriesW i s := ⟨respond resp s, fun w => h (withW w s)⟩

theorem carriesW_of_class {i : Instr} (h : i.format = .pv) (s : State) : CarriesW i s :=
  ⟨yieldOrRaise (yields i) s, fun w => by rw [exec_class h, yieldOrRaise_withW]⟩

/-- Every other instruction carries `W` along. -/
theorem carriesW_of_not_writesW {i : Instr} (h : ¬WritesW i) (s : State) : CarriesW i s := by
  cases i with
  | readField v p k => exact carriesW_of_respond (exec_readField v p k) s
  | zeroField v p k => exact carriesW_of_respond (exec_zeroField v p k) s
  | writeField v x p k => exact carriesW_of_respond (exec_writeField v x p k) s
  | exceedsI32 n => exact carriesW_of_respond (exec_exceedsI32 n) s
  | encodeBytes bs =>
    by_cases hlen : bs.length ≤ 2147483647
    · exact ⟨beginEncode bs s, fun w => exec_encodeBytes_of_le hlen (withW w s)⟩
    · exact carriesW_of_respond (exec_encodeBytes_of_lt (Nat.not_le.mp hlen)) s
  | decodeValues vs => exact ⟨beginDecode vs s, fun w => exec_decodeValues vs (withW w s)⟩
  | reserved => exact carriesW_of_respond (resp := faulty .illegalOp) (fun _ => rfl) s
  | unpack v => exact ⟨yieldOrRaise (bytesOf v) s, fun w => by rw [exec_unpack, yieldOrRaise_withW]⟩
  | pv3 | pv2 | pv1 | pvFieldTooLarge | pvNegative => exact carriesW_of_class rfl s
  | pack3 a b c => exact absurd (.inl ⟨a, b, c, rfl⟩) h
  | pack1 a => exact absurd (.inr (.inl ⟨a, rfl⟩)) h
  | pack2 a b => exact absurd (.inr (.inr ⟨a, b, rfl⟩)) h

/-- Settles O51: an instruction that carries `W` along, whatever it holds, leaves the one it holds. -/
theorem onlyPackStepsWriteTheWorkingValue : Obligations.OnlyPackStepsWriteTheWorkingValue := by
  unfold Obligations.OnlyPackStepsWriteTheWorkingValue
  intro i s t he
  by_cases hi : WritesW i
  · exact .inr hi
  · obtain ⟨u, hu⟩ := carriesW_of_not_writesW hi s
    have hs := hu s.w
    rw [withW_self, he] at hs
    cases hs
    exact .inl rfl

/-- Two states that differ in `W` alone: what `exec` makes of them differs in `W` alone. -/
theorem exec_withW (i : Instr) (w : WorkingValue) (s : State) :
    ∃ t w', exec i s = .next t ∧ exec i (withW w s) = .next (withW w' t) := by
  by_cases hi : WritesW i
  · obtain ⟨t, ht⟩ := exec_withW_of_writesW hi s
    exact ⟨t, t.w, ht s.w, ht w⟩
  · obtain ⟨t, ht⟩ := carriesW_of_not_writesW hi s
    exact ⟨withW s.w t, w, ht s.w, ht w⟩

theorem settle_withW (w w' : WorkingValue) (s t : State) :
    ∃ w'', settle (withW w s) (withW w' t) = withW w'' (settle s t) := by
  by_cases ha : s.activity = .encoding
  · rw [settle_inside_encode ha, settle_inside_encode (s := withW w s) ha]
    exact ⟨Config.unspecifiedW t.freeDraws, rfl⟩
  · rw [settle_outside_encode ha, settle_outside_encode (s := withW w s) ha]
    exact ⟨w', rfl⟩

theorem finish_withW (w : WorkingValue) (s : State) : finish (withW w s) = withW w (finish s) := by
  simp only [finish, withW_activity]
  cases s.activity <;> rfl

/-- Settles O50: the selection does not depend on `W`, and each thing selected carries it along or overwrites it. -/
theorem workingValueIsNeverObserved : Obligations.WorkingValueIsNeverObserved := by
  unfold Obligations.WorkingValueIsNeverObserved
  intro s w
  change ∃ t w', step s = .next t ∧ step (withW w s) = .next (withW w' t)
  have hsel' := select_withW w s
  cases hsel : select s with
  | run i =>
    obtain ⟨t, w', he, he'⟩ := exec_withW i w s
    obtain ⟨w'', hsettle⟩ := settle_withW w w' s t
    exact ⟨settle s t, w'', step_run hsel he, by rw [step_run (hsel'.trans hsel) he', hsettle]⟩
  | finish => exact ⟨finish s, w, step_finish hsel, by rw [step_finish (hsel'.trans hsel), finish_withW]⟩
  | wait => exact ⟨s, w, step_wait hsel, step_wait (hsel'.trans hsel)⟩
  | missing =>
    obtain ⟨t, hstep, -⟩ := exists_step_effect s
    simp only [step, hsel] at hstep
    cases hstep

/-! ### Responses and resets, field by field -/

/-- Settles O1: `respond` and `raise` written out. -/
theorem givingAResponse : Obligations.GivingAResponse := by
  unfold Obligations.GivingAResponse
  exact ⟨fun _ _ => rfl, fun _ _ => rfl⟩

/-- Settles O58: the fields of `externalReset`, the requests by whether an operation was in progress. -/
theorem externalResetAbandonsTheOperation : Obligations.ExternalResetAbandonsTheOperation := by
  unfold Obligations.ExternalResetAbandonsTheOperation
  intro s
  refine ⟨⟨rfl, rfl, rfl, rfl⟩, rfl, fun ha => ?_, fun ha => ?_, rfl⟩
  · rw [externalReset_requests, if_pos ha]
  · rw [externalReset_requests, if_neg ha]

end Sys2Proof.Machine

end

section
/-! Requests and their responses over whole runs (10_state.md R20, 20_memory.md R51, 60_exceptions.md R162, R180). -/

namespace Sys2Proof.Machine

/-! ### The statuses of the one response -/

/-- The closed-form response ends with a status that the table allows its operation (R162). -/
theorem mayEndWith_response (r : Request) : mayEndWith (decodeRequest r) (response r).status = true := by
  have hformat := decodeRequest_format r
  cases hi : decodeRequest r with
  | readField v p w =>
    rw [response_of_readField hi]
    rcases readField_cases v p w with ⟨g, h⟩ | h <;> rw [h] <;> rfl
  | zeroField v p w =>
    rw [response_of_zeroField hi]
    rcases zeroField_cases v p w with ⟨z, h⟩ | h <;> rw [h] <;> rfl
  | writeField v x p w =>
    rw [response_of_writeField hi]
    rcases writeField_cases v x p w with ⟨-, h⟩ | ⟨-, -, h⟩ | ⟨-, -, -, h⟩ | ⟨-, -, r, h, -⟩ <;> rw [h] <;> rfl
  | encodeBytes bs =>
    simp only [response, hi]
    split <;> rfl
  | decodeValues vs =>
    simp only [response, hi]
    split <;> rfl
  | exceedsI32 | reserved =>
    simp only [response, hi]
    rfl
  | pack3 | pack1 | pack2 | unpack | pv3 | pv2 | pv1 | pvFieldTooLarge | pvNegative =>
    rw [hi] at hformat
    cases hformat

/-- Settles O52: a request is answered with its one response, whose status the table allows. -/
theorem statusesOfEachOperation : Obligations.StatusesOfEachOperation := by
  unfold Obligations.StatusesOfEachOperation
  intro r resp h
  rw [answers_iff.mp h]
  exact mayEndWith_response r

/-- Settles O53: one closed-form answer for each operation. -/
theorem everyRequestIsAnswered : Obligations.EveryRequestIsAnswered := by
  unfold Obligations.EveryRequestIsAnswered
  exact answers_response

/-! ### Responses along a run -/

/-- A response given stays given. -/
theorem responses_prefix_of_step {s t : State} (h : step s = .next t) : s.responses <+: t.responses := by
  rcases oneResponseForEachRequest s t h with ⟨-, hsame⟩ | ⟨-, -, resp, hone, -⟩
  · rw [hsame]
  · rw [hone]
    exact List.prefix_append _ _

theorem responses_prefix_of_run {k : Nat} {s t : State} (h : run k s = .next t) : s.responses <+: t.responses := by
  induction k generalizing s with
  | zero =>
    cases h
    exact List.prefix_rfl
  | succ k ih =>
    obtain ⟨u, hu, -⟩ := exists_step_effect s
    rw [run_succ hu] at h
    exact (responses_prefix_of_step hu).trans (ih h)

/-- Of two runs from one state the longer has all responses of the shorter. -/
theorem responses_prefix_of_le {j k : Nat} {s t u : State} (hjk : j ≤ k) (hj : run j s = .next t)
    (hk : run k s = .next u) : t.responses <+: u.responses := by
  refine responses_prefix_of_run (k := k - j) ?_
  rw [← run_add (k - j) hj, Nat.add_sub_cancel' hjk, hk]

/-- Two runs from one state that have each added one response have added the same. -/
theorem added_response_unique {j k : Nat} {s t u : State} {a b : Response} (hj : run j s = .next t)
    (hk : run k s = .next u) (ha : t.responses = s.responses ++ [a]) (hb : u.responses = s.responses ++ [b]) :
    a = b := by
  have hlen : t.responses.length = u.responses.length := by rw [ha, hb, List.length_append, List.length_append]; rfl
  have heq : t.responses = u.responses := by
    rcases Nat.le_total j k with h | h
    · exact (responses_prefix_of_le h hj hk).eq_of_length hlen
    · exact ((responses_prefix_of_le h hk hj).eq_of_length hlen.symm).symm
  rw [ha, hb] at heq
  exact List.singleton_inj.mp (List.append_cancel_left heq)

/-- The first response that a run from an idle block adds is the closed-form one of the request on the port. -/
theorem added_response_eq {j : Nat} {s t : State} {r : Request} {rest : List Request} {a : Response} (hs : s.Idle)
    (hr : s.requests = r :: rest) (hrun : run j s = .next t) (ha : t.responses = s.responses ++ [a]) :
    a = response r := by
  obtain ⟨k, u, hk, -, -, hb⟩ := answers_response r s hs rest hr
  exact added_response_unique hrun hk ha hb

/-- Settles O54: both responses are the closed-form one of the request. -/
theorem responseDependsOnTheRequestOnly : Obligations.ResponseDependsOnTheRequestOnly := by
  unfold Obligations.ResponseDependsOnTheRequestOnly
  intro s₁ s₂ t₁ t₂ r rest₁ rest₂ a b j k hs₁ hs₂ hr₁ hr₂ hj hk ha hb
  rw [added_response_eq hs₁ hr₁ hj ha, added_response_eq hs₂ hr₂ hk hb]

/-- The requests `rs` on the port of an idle block are all answered, in order. -/
theorem run_serves_requests (rs : List Request) {s : State} (hs : s.Idle) (hr : s.requests = rs) :
    ∃ k t, run k s = .next t ∧ t.Idle ∧ t.requests = [] ∧ t.responses = s.responses ++ rs.map response := by
  induction rs generalizing s with
  | nil => exact ⟨0, s, rfl, hs, hr, by rw [List.map_nil, List.append_nil]⟩
  | cons r rest ih =>
    obtain ⟨j, u, hj, hu, hureq, hures⟩ := answers_response r s hs rest hr
    obtain ⟨k, t, hk, ht, htreq, htres⟩ := ih hu hureq
    refine ⟨j + k, t, (run_add k hj).trans hk, ht, htreq, ?_⟩
    rw [htres, hures, List.map_cons, List.append_assoc, List.singleton_append]

/-- Settles O55: by induction on the requests, each answered from the idle block that the one before it leaves. -/
theorem programsAreServedInOrder : Obligations.ProgramsAreServedInOrder := by
  unfold Obligations.ProgramsAreServedInOrder
  intro s hs
  exact run_serves_requests s.requests hs rfl

end Sys2Proof.Machine

end

section
/-! Several field writes (40_digit_field_mux.md R96, R99 to R102, 42_packing_encoder.md section 2): writing 0, writing
twice, writing to fields that share no position, and the order of a group step's writes. -/

namespace Sys2Proof.Machine

/-! ### Writing 0, and the cleared rest (R99, R102) -/

theorem zeroField_ok_of_supported (v : WorkingValue) {p w : FieldIndex} (hd : SupportedField p w) :
    zeroField v p w = .ok (BitVec.ofNat 64 (zeroDigits v.toNat p.toNat w.toNat)) := by
  rw [zeroField, if_pos ((inFieldDomain_iff p w).mpr hd)]

/-- Writing 0 is clearing (R99). -/
theorem writeField_zero (v : WorkingValue) (p w : FieldIndex) : writeField v 0#64 p w = zeroField v p w := by
  by_cases hd : SupportedField p w
  · have hlt : zeroDigits v.toNat p.toNat w.toNat < 2 ^ 64 := Nat.lt_of_le_of_lt (zeroDigits_le _ _ _) v.isLt
    rw [zeroField_ok_of_supported v hd]
    exact writeField_of_fits hd (Nat.pow_pos (by decide)) (zeroDigits_eq_writeDigits_zero _ _ _).symm hlt
  · rw [writeField_of_unsupported v _ hd, zeroField_of_unsupported v hd]

/-- Settles O7: writing 0 is ZERO_FIELD, which ends with `DOMAIN_ERROR` or a value. -/
theorem writingZeroIsZeroField : Obligations.WritingZeroIsZeroField := by
  unfold Obligations.WritingZeroIsZeroField
  intro v p w
  rw [writeField_zero]
  rcases zeroField_cases v p w with ⟨z, h⟩ | h <;> rw [h] <;> exact ⟨rfl, nofun, nofun⟩

/-- Settles O10: on plain numbers the cleared value and its group add up to the operand. -/
theorem valueIsRestPlusField : Obligations.ValueIsRestPlusField := by
  unfold Obligations.ValueIsRestPlusField
  intro v z g p w hz hg
  obtain ⟨hd, hzn⟩ := zeroField_ok hz
  obtain ⟨g', hg', hgn⟩ := readField_of_supported v hd
  obtain rfl : g' = g := Except.ok.inj (hg'.symm.trans hg)
  rw [hzn, hgn, zeroDigits_add_field]

/-! ### A second write to the same field (R100) -/

/-- A group that is replaced twice holds what was written last. -/
theorem writeDigits_writeDigits (v y p : Nat) {x w : Nat} (hx : x < 10 ^ w) :
    writeDigits (writeDigits v x p w) y p w = writeDigits v y p w := by
  have hgroup : (v / 10 ^ (p - w) / 10 ^ w * 10 ^ w + x) / 10 ^ w = v / 10 ^ (p - w) / 10 ^ w := by
    rw [Nat.mul_comm, Nat.mul_add_div (Nat.pow_pos (by decide)), Nat.div_eq_of_lt hx, Nat.add_zero]
  rw [writeDigits_eq (writeDigits v x p w), writeDigits_div, writeDigits_mod, hgroup, ← writeDigits_eq]

/-- WRITE_FIELD looks at its operand through the exact result only. -/
theorem writeField_congr {v v' x : WorkingValue} {p w : FieldIndex}
    (h : writeDigits v'.toNat x.toNat p.toNat w.toNat = writeDigits v.toNat x.toNat p.toNat w.toNat) :
    writeField v' x p w = writeField v x p w := by
  simp only [writeField, h]

theorem writeField_writeField {v x v' : WorkingValue} {p w : FieldIndex} (h : writeField v x p w = .ok v')
    (y : WorkingValue) : writeField v' y p w = writeField v y p w := by
  obtain ⟨-, hx, hv⟩ := writeField_ok h
  exact writeField_congr (by rw [hv, writeDigits_writeDigits _ _ _ hx])

/-- Settles O8: the second write decides, so a write of the same number changes nothing; clearing is writing 0. -/
theorem secondWriteReplacesTheFirst : Obligations.SecondWriteReplacesTheFirst := by
  unfold Obligations.SecondWriteReplacesTheFirst
  refine ⟨fun v x v' p w h => ⟨(writeField_writeField h x).trans h, writeField_writeField h⟩, fun v z p w h => ?_⟩
  rw [← writeField_zero] at h ⊢
  exact (writeField_writeField h _).trans h

/-! ### Writes to fields that share no position (R101) -/

/-- The field with top position `p` and width `w` lies in the digits and shares no position with (`p'`, `w'`). -/
def FieldsApart (p w p' w' : Nat) : Prop := w ≤ p ∧ w' ≤ p' ∧ (p ≤ p' - w' ∨ p' ≤ p - w)

theorem FieldsApart.symm {p w p' w' : Nat} (h : FieldsApart p w p' w') : FieldsApart p' w' p w := by
  obtain ⟨hw, hw', h⟩ := h
  exact ⟨hw', hw, h.symm⟩

/-- A group lies in the quotient by a power of ten at most that of its lowest position. -/
theorem readDigits_eq_of_div_eq {u v n p w : Nat} (hn : n ≤ p - w) (h : u / 10 ^ n = v / 10 ^ n) :
    readDigits u p w = readDigits v p w := by
  have hp : 10 ^ (p - w) = 10 ^ n * 10 ^ (p - w - n) := by rw [← Nat.pow_add, Nat.add_sub_cancel' hn]
  simp only [readDigits, hp, ← Nat.div_div_eq_div_mul, h]

/-- A group lies in the remainder by a power of ten at least that of its top position. -/
theorem readDigits_eq_of_mod_eq {u v n p w : Nat} (hw : w ≤ p) (hn : p ≤ n) (h : u % 10 ^ n = v % 10 ^ n) :
    readDigits u p w = readDigits v p w := by
  have hp : 10 ^ n = 10 ^ (p - w) * 10 ^ w * 10 ^ (n - p) := by
    rw [← Nat.pow_add, ← Nat.pow_add]
    congr 1
    omega
  have hd : ∀ m, readDigits m p w = m % 10 ^ n % (10 ^ (p - w) * 10 ^ w) / 10 ^ (p - w) := fun m => by
    rw [hp, Nat.mod_mul_right_mod, Nat.mod_mul_right_div_self, readDigits]
  rw [hd, hd, h]

/-- A write leaves the groups of other fields as they are. -/
theorem readDigits_writeDigits_of_apart (v : Nat) {x p w p' w' : Nat} (hx : x < 10 ^ w)
    (h : FieldsApart p w p' w') : readDigits (writeDigits v x p w) p' w' = readDigits v p' w' := by
  obtain ⟨hw, hw', habove | hbelow⟩ := h
  · exact readDigits_eq_of_div_eq habove (writeDigits_div_top v hw hx)
  · exact readDigits_eq_of_mod_eq hw' hbelow (writeDigits_mod v x p w)

/-- A write exchanges the group, in its place. -/
theorem writeDigits_add_field (v x p w : Nat) :
    writeDigits v x p w + readDigits v p w * 10 ^ (p - w) = v + x * 10 ^ (p - w) := by
  have h := zeroDigits_add_field v p w
  rw [writeDigits]
  omega

/-- Writes to fields apart commute: each exchanges its own group, which the other leaves as it is. -/
theorem writeDigits_comm (v : Nat) {x p w y p' w' : Nat} (hx : x < 10 ^ w) (hy : y < 10 ^ w')
    (h : FieldsApart p w p' w') :
    writeDigits (writeDigits v x p w) y p' w' = writeDigits (writeDigits v y p' w') x p w := by
  have hxy := writeDigits_add_field (writeDigits v x p w) y p' w'
  have hyx := writeDigits_add_field (writeDigits v y p' w') x p w
  rw [readDigits_writeDigits_of_apart v hx h] at hxy
  rw [readDigits_writeDigits_of_apart v hy h.symm] at hyx
  have hxv := writeDigits_add_field v x p w
  have hyv := writeDigits_add_field v y p' w'
  omega

/-- Settles O9: the exact results of the two orders are the same number, and the one that is given fits. -/
theorem disjointWritesCommute : Obligations.DisjointWritesCommute := by
  unfold Obligations.DisjointWritesCommute
  intro v x y a b c p₁ w₁ p₂ w₂ hapart ha hb hc
  obtain ⟨hd₁, hx, han⟩ := writeField_ok ha
  obtain ⟨-, -, hbn⟩ := writeField_ok hb
  obtain ⟨hd₂, hy, hcn⟩ := writeField_ok hc
  have hfields : FieldsApart p₁.toNat w₁.toNat p₂.toNat w₂.toNat :=
    ⟨hd₁.2.1, hd₂.2.1, hapart.imp Nat.le_of_lt_succ Nat.le_of_lt_succ⟩
  have hresult : writeDigits c.toNat x.toNat p₁.toNat w₁.toNat = b.toNat := by
    rw [hcn, hbn, han, writeDigits_comm _ hx hy hfields]
  rw [writeField_of_fits hd₁ hx hresult b.isLt, BitVec.ofNat_toNat, BitVec.setWidth_eq]

/-! ### Below 10^19 (R96, decision D6) -/

/-- A write to a field of the supported domain keeps a number of 19 digits one of 19 digits. -/
theorem writeDigits_lt {v x p w : Nat} (hv : v < 10 ^ 19) (hw : w ≤ p) (hp : p ≤ 19) (hx : x < 10 ^ w) :
    writeDigits v x p w < 10 ^ 19 := by
  have hsplit : 10 ^ 19 = 10 ^ (19 - p) * 10 ^ p := by rw [← Nat.pow_add, Nat.sub_add_cancel hp]
  have hpos : 0 < 10 ^ p := Nat.pow_pos (by decide)
  rw [hsplit, ← Nat.div_lt_iff_lt_mul hpos] at hv ⊢
  rwa [writeDigits_div_top v hw hx]

/-- Settles O11: the exact result stays below 10^19, which is below 2^64. -/
theorem workingOverflowNeedsTwentyDigits : Obligations.WorkingOverflowNeedsTwentyDigits := by
  unfold Obligations.WorkingOverflowNeedsTwentyDigits
  intro v x p w hv
  have hlt : SupportedField p w → x.toNat < 10 ^ w.toNat →
      writeDigits v.toNat x.toNat p.toNat w.toNat < 10 ^ 19 := fun ⟨_, hw, hp⟩ hx => writeDigits_lt hv hw hp hx
  rcases writeField_cases v x p w with ⟨-, h⟩ | ⟨-, -, h⟩ | ⟨hd, hx, hlarge, -⟩ | ⟨hd, hx, r, h, hr⟩
  · rw [h]
    exact ⟨nofun, nofun⟩
  · rw [h]
    exact ⟨nofun, nofun⟩
  · have := hlt hd hx
    omega
  · rw [h]
    refine ⟨nofun, fun r' hr' => ?_⟩
    cases hr'
    rw [hr]
    exact hlt hd hx

/-! ### The order of a group step's writes (42_packing_encoder.md section 2) -/

/-- A field write on plain numbers. -/
def writeNumber (n : Nat) (f : FieldWrite) : Nat := writeDigits n f.digits.toNat f.position.toNat f.width.toNat

/-- A field write that raises neither `DOMAIN_ERROR` nor `OVERFLOW_ERROR`. -/
def FieldWrite.Fits (f : FieldWrite) : Prop := SupportedField f.position f.width ∧ f.digits.toNat < 10 ^ f.width.toNat

/-- Two field writes to fields that share no position. -/
def FieldWrite.Apart (f g : FieldWrite) : Prop :=
  FieldsApart f.position.toNat f.width.toNat g.position.toNat g.width.toNat

theorem writeNumber_lt {n : Nat} {f : FieldWrite} (hn : n < 10 ^ 19) (hf : f.Fits) : writeNumber n f < 10 ^ 19 := by
  obtain ⟨⟨-, hw, hp⟩, hx⟩ := hf
  exact writeDigits_lt hn hw hp hx

/-- Writes that fit, below 10^19, are the writes on plain numbers one after the other. -/
theorem applyWrites_eq_foldl {fs : List FieldWrite} (hfs : ∀ f ∈ fs, f.Fits) {n : Nat} (hn : n < 10 ^ 19) :
    applyWrites (BitVec.ofNat 64 n) fs = .ok (BitVec.ofNat 64 (fs.foldl writeNumber n)) := by
  induction fs generalizing n with
  | nil => rfl
  | cons f rest ih =>
    obtain ⟨hf, hrest⟩ := List.forall_mem_cons.mp hfs
    have hnext := writeNumber_lt hn hf
    rw [applyWrites_cons (by omega) hf.1 hf.2 rfl (show writeNumber n f < 2 ^ 64 by omega)]
    exact ih hrest hnext

/-- Writes that fit, to fields apart, give the same working value in every order. -/
theorem applyWrites_perm {fs gs : List FieldWrite} (h : fs.Perm gs) (hfits : ∀ f ∈ gs, f.Fits)
    (hapart : gs.Pairwise FieldWrite.Apart) : applyWrites Config.wInit fs = applyWrites Config.wInit gs := by
  have hsymm : Std.Symm FieldWrite.Apart := ⟨fun _ _ => FieldsApart.symm⟩
  have hcomm : ∀ f ∈ fs, ∀ g ∈ fs, ∀ n, writeNumber (writeNumber n f) g = writeNumber (writeNumber n g) f := by
    intro f hf g hg n
    by_cases hfg : f = g
    · rw [hfg]
    · exact writeDigits_comm n (hfits f (h.subset hf)).2 (hfits g (h.subset hg)).2
        (hapart.forall (h.subset hf) (h.subset hg) hfg)
  have hinit : 1000000000 < 10 ^ 19 := by decide
  change applyWrites (BitVec.ofNat 64 1000000000) fs = applyWrites (BitVec.ofNat 64 1000000000) gs
  rw [applyWrites_eq_foldl (fun f hf => hfits f (h.subset hf)) hinit, applyWrites_eq_foldl hfits hinit,
    h.foldl_eq' hcomm]

/-- A byte fits a field of three digits. -/
theorem byteWrite_fits (b : Byte) {p : FieldIndex} (hd : SupportedField p Config.fieldWidth) :
    FieldWrite.Fits ⟨zextByte b, p, Config.fieldWidth⟩ :=
  ⟨hd, (zextByte_toNat b).trans_lt (Nat.lt_of_lt_of_le b.isLt (by decide : 2 ^ 8 ≤ 10 ^ 3))⟩

theorem writeA_fits (b : Byte) : (writeA b).Fits := byteWrite_fits b (by decide)

theorem writeB_fits (b : Byte) : (writeB b).Fits := byteWrite_fits b (by decide)

theorem writeC_fits (b : Byte) : (writeC b).Fits := byteWrite_fits b (by decide)

theorem writeTag_fits {t : WorkingValue} (h : t.toNat < 10) : (writeTag t).Fits :=
  ⟨(by decide : SupportedField Config.tagPos Config.tagWidth), h⟩

/-- Settles O20: the writes of a group step fit their fields, which are the four different fields of the layout. -/
theorem fieldWriteOrderIsFree : Obligations.FieldWriteOrderIsFree := by
  unfold Obligations.FieldWriteOrderIsFree
  intro a b c fs
  refine ⟨fun h => applyWrites_perm h ?fits3 ?apart3, fun h => applyWrites_perm h ?fits2 ?apart2,
    fun h => applyWrites_perm h ?fits1 ?apart1⟩
  case fits3 => simp [writeA_fits, writeB_fits, writeC_fits]
  case fits2 => simp [writeB_fits, writeC_fits, writeTag_fits]
  case fits1 => simp [writeC_fits, writeTag_fits]
  all_goals simp [FieldWrite.Apart, FieldsApart, writeA, writeB, writeC, writeTag]

end Sys2Proof.Machine

end
